-- ==== Sys2Proof/Word.lean ====
section
/-! DEFINITION. The machine's plain value types (00_scope.md R6, R7, R10). -/

namespace Sys2Proof

/-- `Word32` of R10: an instruction word, a general register (R7), an address (R6). -/
abbrev Word := BitVec 32

/-- `Half16` of R10: a 16-bit immediate (R96). -/
abbrev Half := BitVec 16

/-- `Byte` of R10: the addressable unit (R50). -/
abbrev Byte := BitVec 8

/-- `Idx5` of R10: a register index as it stands in an instruction field (R20, R98). -/
abbrev Idx5 := BitVec 5

/-- The 6-bit `opcode` and `funct` fields (R6, R92). -/
abbrev Six := BitVec 6

/-- The 26-bit `target` field (R6, R94). -/
abbrev Target26 := BitVec 26

end Sys2Proof
end

