-- ==== Sys2Proof/Config.lean ====
section
/-! DEFINITION. The implementation parameters of 00_scope.md R6 and R8: what is fixed for the machine and is
not state. The spec decides `PC_STEP`, `OBJ_ORDER` and `MEM_ORDER`; the numbers of the open parameters are the
ones `State.reset` is built from, each named in the assumption log. -/

namespace Sys2Proof

/-- A byte order: where the least significant byte of a multi-byte value lies. -/
inductive ByteOrder where
  | little
  | big
  deriving DecidableEq, Repr

/-- `TEXT_BASE` (R8, D12: open). PRESUMED: the suggested instantiation of R8, log entry 1. -/
def Config.textBase : Word := 0x00400000#32

/-- The maximum length of the one region present at reset (R8, D15: open). DESIGN CHOICE, log entry 4. -/
def Config.textMax : Nat := 0x1000

/-- `PC_STEP` (R8, R26, D1): the amount the program counter advances at fetch. -/
def Config.pcStep : Word := 4#32

/-- `OBJ_ORDER` (R64, D6): the byte order of `emit_word`, of the object stream and of the fetch path. -/
def Config.objOrder : ByteOrder := .little

/-- `MEM_ORDER` (R57, D7): the byte order of halfword and word reads; a parameter of its own, beside `objOrder`. -/
def Config.memOrder : ByteOrder := .little

/-- `FPR_WIDTH` (R8, R31, D14: open). PRESUMED: the 32 bits of the MIPS family, log entry 3; nothing reads it. -/
abbrev Config.fprWidth : Nat := 32

/-- What a byte that no cell of a region lists holds: zero, by the zero fill of R62 and the zero a
mapped-uninitialized read yields (R55). -/
abbrev Config.unlistedByte : Byte := 0#8

/-- A floating-point register (R31). -/
abbrev Fpr := BitVec Config.fprWidth

end Sys2Proof
end

