-- ==== Sys2Proof/Syntax.lean ====
section
/-! DEFINITION. The syntax: the ten instructions of opcode_table.json as one inductive, the field records of the
Field Codec, the assembler's conditions, the Instruction Catalog's descriptors and the statement nodes the
assembler passes consume. Nothing here has a meaning. -/

namespace Sys2Proof

/-- One constructor per row of opcode_table.json; operands in the order the decoder of R217 names them. A field has
exactly the width of its place in the word (R92, R93, R94). -/
inductive Instr where
  | sll (rd rt : Idx5) (shamt : Idx5)
  | srl (rd rt : Idx5) (shamt : Idx5)
  | add (rd rs rt : Idx5)
  | sub (rd rs rt : Idx5)
  | xor (rd rs rt : Idx5)
  | ori (rt rs : Idx5) (imm : Half)
  | lui (rt : Idx5) (imm : Half)
  | lw (rt : Idx5) (imm : Half) (rs : Idx5)
  | beq (rs rt : Idx5) (imm : Half)
  | j (target : Target26)
  deriving DecidableEq, Repr

/-- A token of the assembler: the characters of a mnemonic, a register name, a label or a literal (R160, R182). -/
abbrev Token := List Char

/-- The fields of an instruction word (R92, R93, R94). -/
inductive Field where
  | opcode
  | rs
  | rt
  | rd
  | shamt
  | funct
  | imm
  | target
  deriving DecidableEq, Repr

/-- The optional inputs of `pack` (R133). `target` is the absolute label address (R136). -/
structure PackFields where
  opcode : Option Word := none
  rs : Option Word := none
  rt : Option Word := none
  rd : Option Word := none
  shamt : Option Word := none
  funct : Option Word := none
  imm : Option Half := none
  target : Option Word := none
  deriving DecidableEq, Repr

/-- What `unpack_r` answers (R138). -/
structure RFields where
  rs : Idx5
  rt : Idx5
  rd : Idx5
  shamt : Idx5
  funct : Six
  deriving DecidableEq, Repr

/-- What `unpack_i` answers (R138). -/
structure IFields where
  opcode : Six
  rs : Idx5
  rt : Idx5
  imm : Half
  deriving DecidableEq, Repr

/-- What `unpack_j` answers (R138). -/
structure JFields where
  opcode : Six
  target : Target26
  deriving DecidableEq, Repr

/-- The assembler-time conditions (60_exceptions.md R270, R271): each refuses an encoding, and no word is
produced. `duplicateLabel` is this model's name for the refusal that N23 and U17 ask for (log entry 9). -/
inductive AsmCondition where
  /-- A value does not fit its width (R130, R195). -/
  | overflow (value : Int) (width : Nat) (field : Option Field)
  /-- A bare literal above 31 (R165). -/
  | invalidRegister (token : Token)
  /-- A register token of no accepted shape (R165 to R168). -/
  | malformedMnemonic (token : Token)
  /-- The operand count is not the form's (R185). -/
  | arityMismatch (mnemonic : Token) (count : Nat)
  /-- The label is not in the Label Table (R194, R196). -/
  | undeclaredLabel (name : Token)
  /-- A directive other than `.text`, `.data`, `.eqv` (R200). -/
  | unsupportedDirective (name : Token)
  /-- The mnemonic is in no table (R181). -/
  | unknownMnemonic (mnemonic : Token)
  /-- A second declaration of one label name (N23, U17). -/
  | duplicateLabel (name : Token)
  deriving DecidableEq, Repr

/-- A condition with the statement it arose at, numbered from 0 over the flattened sequence ("the
statement/field context that triggered them", R271). -/
structure AsmError where
  statement : Nat
  condition : AsmCondition
  deriving DecidableEq, Repr

/-- The argument forms of R-type mnemonics (R183). -/
inductive RForm where
  | rdRsRt
  | rdRtShamt
  deriving DecidableEq, Repr

/-- The argument forms of I-type mnemonics (R183). -/
inductive IForm where
  | rtImm
  | rtImmRs
  | rsRtLabel
  | rtRsImm
  deriving DecidableEq, Repr

/-- An Instruction Descriptor (R103). A J-type mnemonic has the one form "label". -/
inductive Descriptor where
  | r (funct : Six) (shamt : Idx5) (form : RForm)
  | i (opcode : Six) (form : IForm)
  | j (opcode : Six)
  deriving DecidableEq, Repr

/-- The Instruction Catalog: three tables, searched R, then I, then J (R103, R181). -/
structure Catalog where
  rTable : List (Token × Descriptor)
  iTable : List (Token × Descriptor)
  jTable : List (Token × Descriptor)
  deriving DecidableEq, Repr

/-- A statement node (R182). -/
inductive Node where
  | label (name : Token)
  | directive (name : Token) (args : List Token)
  | instr (mnemonic : Token) (args : List Token)
  deriving DecidableEq, Repr

/-- A statement or a nested sequence of them, "flattened before pass 1" (R182). -/
inductive Tree where
  | node (n : Node)
  | seq (ts : List Tree)
  deriving Repr

/-- The Label Table (R37, R197): label name to 32-bit instruction address. -/
abbrev LabelTable := List (Token × Word)

/-- The front-end's reading of a literal, which the spec leaves to it (R186, D33: open): the 16-bit value of an
immediate token and the number of a shift-amount token. An argument of the assembler, not state. -/
structure FrontEnd where
  immediate : Token → Half
  number : Token → Nat

end Sys2Proof
end

