-- ==== Sys2Proof/WellFormed.lean ====
section
/-! DEFINITION. Which terms of the syntax are well formed: the strict width checks of the Field Codec as a
predicate on the inputs of `pack`, and the conditions on a catalog and on a program's labels. -/

namespace Sys2Proof

/-- The width `mask` checks for a field (R132). The jump address is checked at 28 bits; an immediate is carried in a
16-bit-wide value and needs no check. -/
def Field.width : Field → Nat
  | .opcode => 6
  | .rs => 5
  | .rt => 5
  | .rd => 5
  | .shamt => 5
  | .funct => 6
  | .imm => 16
  | .target => 28

/-- A value fits a field (R130). -/
def Field.fits (f : Field) (v : Word) : Bool := v.toNat < 2 ^ f.width

/-- An input of `pack` that is absent fits; one that is present must fit its field (R133). -/
def Field.fitsOpt (f : Field) : Option Word → Bool
  | none => true
  | some v => f.fits v

/-- The inputs `pack` accepts (R132, R133). A target address is reduced to 28 bits before the check (R136), so every
address is accepted. -/
def PackFields.wf (p : PackFields) : Bool :=
  Field.opcode.fitsOpt p.opcode && Field.rs.fitsOpt p.rs && Field.rt.fitsOpt p.rt &&
    Field.rd.fitsOpt p.rd && Field.shamt.fitsOpt p.shamt && Field.funct.fitsOpt p.funct

/-- Every term of `Instr` is well formed: each field has the width of its place in the word (R92, R93, R94) and
every value of a field selects something (R97, R98), so no check is left to make. -/
def Instr.wf (_ : Instr) : Bool := true

def Descriptor.isR : Descriptor → Bool
  | .r _ _ _ => true
  | .i _ _ => false
  | .j _ => false

def Descriptor.isI : Descriptor → Bool
  | .r _ _ _ => false
  | .i _ _ => true
  | .j _ => false

def Descriptor.isJ : Descriptor → Bool
  | .r _ _ _ => false
  | .i _ _ => false
  | .j _ => true

/-- The mnemonics of a catalog, in the order it is searched. -/
def Catalog.keys (c : Catalog) : List Token := (c.rTable ++ c.iTable ++ c.jTable).map Prod.fst

/-- The premises on a catalog: each table holds rows of its own kind, and no mnemonic stands twice ("a mnemonic
must not collide across tables", R181, U16). -/
def Catalog.wf (c : Catalog) : Bool :=
  c.rTable.all (fun p => p.2.isR) && c.iTable.all (fun p => p.2.isI) && c.jTable.all (fun p => p.2.isJ) &&
    decide c.keys.Nodup

/-- The label names a statement sequence declares, in order. -/
def labelNames : List Node → List Token
  | [] => []
  | .label n :: ns => n :: labelNames ns
  | .directive _ _ :: ns => labelNames ns
  | .instr _ _ :: ns => labelNames ns

/-- "label name (string, unique)" (R37, R197): no label is declared twice. -/
def labelsUnique (ns : List Node) : Bool := decide (labelNames ns).Nodup

end Sys2Proof
end

