-- ==== Sys2Proof/Decode.lean ====
section
/-! DEFINITION. The Field Codec (40_field_codec.md): `mask`, `pack`, `unpack`, `emit_word`, `load_word`, the object
stream; the decoder, total on every word and on every list of bytes; the encoder; and the opcode table as data. -/

namespace Sys2Proof

/-! ### Field extraction (R138) -/

def opcodeOf (w : Word) : Six := w.extractLsb' 26 6
def rsOf (w : Word) : Idx5 := w.extractLsb' 21 5
def rtOf (w : Word) : Idx5 := w.extractLsb' 16 5
def rdOf (w : Word) : Idx5 := w.extractLsb' 11 5
def shamtOf (w : Word) : Idx5 := w.extractLsb' 6 5
def functOf (w : Word) : Six := w.extractLsb' 0 6
def immOf (w : Word) : Half := w.extractLsb' 0 16
def targetOf (w : Word) : Target26 := w.extractLsb' 0 26

/-- `unpack_r` (R138): meaningful when the opcode is 0. -/
def unpackR (w : Word) : RFields := ⟨rsOf w, rtOf w, rdOf w, shamtOf w, functOf w⟩

/-- `unpack_i` (R138). -/
def unpackI (w : Word) : IFields := ⟨opcodeOf w, rsOf w, rtOf w, immOf w⟩

/-- `unpack_j` (R138, C10): the codec's, not the engine's. -/
def unpackJ (w : Word) : JFields := ⟨opcodeOf w, targetOf w⟩

/-! ### `mask` and `pack` (R130 to R137) -/

/-- `mask(value, width)` (R130): a strict range assertion. The rule's widths are 0 to 32 (D28); past 32 the same test
stands, which no value fails (DESIGN CHOICE, log entry 14). -/
def mask (v : Word) (width : Nat) : Except AsmCondition Word :=
  if v.toNat < 2 ^ width then .ok v else .error (.overflow v.toNat width none)

/-- `mask` at a field's width, naming the field in the condition (R132, R137). -/
def maskField (f : Field) (v : Word) : Except AsmCondition Word :=
  match mask v f.width with
  | .ok v' => .ok v'
  | .error _ => .error (.overflow v.toNat f.width (some f))

/-- The lowest bit of a field's place in the word (R92, R93, R94). -/
def Field.lsb : Field → Nat
  | .opcode => 26
  | .rs => 21
  | .rt => 16
  | .rd => 11
  | .shamt => 6
  | .funct => 0
  | .imm => 0
  | .target => 0

/-- What one optional input contributes to the word: nothing when absent, else its masked value shifted to its
place (R133, D29). -/
def placed (f : Field) : Option Word → Except AsmCondition Word
  | none => .ok 0#32
  | some v =>
    match maskField f v with
    | .ok v' => .ok (v' <<< f.lsb)
    | .error e => .error e

/-- What the target address contributes (R136): bitwise AND with 28 ones, the strict check of the result, then a
right shift by 2. -/
def placedTarget : Option Word → Except AsmCondition Word
  | none => .ok 0#32
  | some a =>
    match maskField .target (a &&& 0x0FFFFFFF#32) with
    | .ok m => .ok (m >>> 2)
    | .error e => .error e

/-- What the immediate contributes: the low 16 bits, unchecked (R96, R132). -/
def placedImm : Option Half → Word
  | none => 0#32
  | some v => v.setWidth 32

/-- `pack` (R133): validation most significant field first (R137), then left-shift-and-or composition. -/
def pack (p : PackFields) : Except AsmCondition Word := do
  let op ← placed .opcode p.opcode
  let rs ← placed .rs p.rs
  let rt ← placed .rt p.rt
  let rd ← placed .rd p.rd
  let sh ← placed .shamt p.shamt
  let fn ← placed .funct p.funct
  let tg ← placedTarget p.target
  return op ||| rs ||| rt ||| rd ||| sh ||| fn ||| placedImm p.imm ||| tg

/-- `pack_r` (R134): the opcode is implicitly 0. -/
def packR (rs rt rd shamt funct : Word) : Except AsmCondition Word :=
  pack { rs := some rs, rt := some rt, rd := some rd, shamt := some shamt, funct := some funct }

/-- `pack_i` (R135). -/
def packI (opcode rs rt : Word) (imm : Half) : Except AsmCondition Word :=
  pack { opcode := some opcode, rs := some rs, rt := some rt, imm := some imm }

/-- `pack_j` (R136): `address` is the absolute label address. -/
def packJ (opcode address : Word) : Except AsmCondition Word :=
  pack { opcode := some opcode, target := some address }

/-! ### Bytes (R140, R142, R143) -/

/-- A value's bytes from its least significant byte up, as a number. -/
def natOfBytesLE : List Byte → Nat
  | [] => 0
  | b :: bs => b.toNat + 256 * natOfBytesLE bs

/-- The value of bytes listed in increasing address order, in a byte order (R57, R58). -/
def natOfBytes (o : ByteOrder) (bs : List Byte) : Nat :=
  match o with
  | .little => natOfBytesLE bs
  | .big => natOfBytesLE bs.reverse

/-- Byte `k` of a word: bits `8k+7 .. 8k` (R65). -/
def byteOf (w : Word) (k : Nat) : Byte := w.extractLsb' (8 * k) 8

/-- The four bytes of a word in increasing address order, in a byte order. -/
def bytesOf (o : ByteOrder) (w : Word) : List Byte :=
  match o with
  | .little => [byteOf w 0, byteOf w 1, byteOf w 2, byteOf w 3]
  | .big => [byteOf w 3, byteOf w 2, byteOf w 1, byteOf w 0]

/-- `emit_word` (R140). -/
def emitWord (w : Word) : List Byte := bytesOf Config.objOrder w

/-- A word from bytes in `OBJ_ORDER`, as the fetch path assembles it (R64). -/
def wordOfBytes (bs : List Byte) : Word := BitVec.ofNat 32 (natOfBytes Config.objOrder bs)

/-- `load_word` (R142). -/
def loadWord (b0 b1 b2 b3 : Byte) : Word := wordOfBytes [b0, b1, b2, b3]

/-- The object stream of a program (R143): no header, no padding. -/
def objectStream : List Word → List Byte
  | [] => []
  | w :: ws => emitWord w ++ objectStream ws

/-! ### The decoder (R217) -/

/-- The engine's `decode` (R217), written as the rule writes it: seven selections, every other word is
`Unimplemented` (`none`). Fields an operation does not name are ignored (R107). -/
def engineDecode (w : Word) : Option Instr :=
  if opcodeOf w = 0x00#6 then
    match functOf w with
    | 0x00#6 => some (.sll (rdOf w) (rtOf w) (shamtOf w))
    | 0x02#6 => some (.srl (rdOf w) (rtOf w) (shamtOf w))
    | 0x20#6 => some (.add (rdOf w) (rsOf w) (rtOf w))
    | 0x22#6 => some (.sub (rdOf w) (rsOf w) (rtOf w))
    | 0x26#6 => some (.xor (rdOf w) (rsOf w) (rtOf w))
    | _ => none
  else
    match opcodeOf w with
    | 0x0D#6 => some (.ori (rtOf w) (rsOf w) (immOf w))
    | 0x0F#6 => some (.lui (rtOf w) (immOf w))
    | _ => none

/-- Why the decoder rejects: a word outside opcode_table.json (R109), by the field that selects nothing, or bytes
that end inside a word (R90). -/
inductive Reject where
  | unlistedFunct (funct : Six)
  | unlistedOpcode (opcode : Six)
  | truncated (bytes : Nat)
  deriving DecidableEq, Repr

/-- The decoder over all ten rows of opcode_table.json: the engine's selections, then the three encode-only rows
(R104, R260, R261, R262), whose words the engine's own decode leaves `Unimplemented` (log entry 7). -/
def decodeWord (w : Word) : Except Reject Instr :=
  match engineDecode w with
  | some i => .ok i
  | none =>
    match opcodeOf w with
    | 0x00#6 => .error (.unlistedFunct (functOf w))
    | 0x23#6 => .ok (.lw (rtOf w) (immOf w) (rsOf w))
    | 0x04#6 => .ok (.beq (rsOf w) (rtOf w) (immOf w))
    | 0x02#6 => .ok (.j (targetOf w))
    | op => .error (.unlistedOpcode op)

/-- Decoding from bytes in increasing address order: one word (R90, R64) and the rest of the bytes. -/
def decodeBytes : List Byte → Except Reject (Instr × List Byte)
  | b0 :: b1 :: b2 :: b3 :: rest =>
    match decodeWord (loadWord b0 b1 b2 b3) with
    | .ok i => .ok (i, rest)
    | .error e => .error e
  | [] => .error (.truncated 0)
  | [_] => .error (.truncated 1)
  | [_, _] => .error (.truncated 2)
  | [_, _, _] => .error (.truncated 3)

/-! ### The encoder -/

/-- The R layout (R92) with opcode 0. -/
def wordR (rs rt rd shamt : Idx5) (funct : Six) : Word :=
  (0#6 ++ rs ++ rt ++ rd ++ shamt ++ funct : BitVec (6 + 5 + 5 + 5 + 5 + 6))

/-- The I layout (R93). -/
def wordI (opcode : Six) (rs rt : Idx5) (imm : Half) : Word :=
  (opcode ++ rs ++ rt ++ imm : BitVec (6 + 5 + 5 + 16))

/-- The J layout (R94). -/
def wordJ (opcode : Six) (target : Target26) : Word :=
  (opcode ++ target : BitVec (6 + 26))

/-- The canonical word of an instruction (R104, R184): unused fields are zero. -/
def encode : Instr → Word
  | .sll rd rt shamt => wordR 0#5 rt rd shamt 0x00#6
  | .srl rd rt shamt => wordR 0#5 rt rd shamt 0x02#6
  | .add rd rs rt => wordR rs rt rd 0#5 0x20#6
  | .sub rd rs rt => wordR rs rt rd 0#5 0x22#6
  | .xor rd rs rt => wordR rs rt rd 0#5 0x26#6
  | .ori rt rs imm => wordI 0x0D#6 rs rt imm
  | .lui rt imm => wordI 0x0F#6 0#5 rt imm
  | .lw rt imm rs => wordI 0x23#6 rs rt imm
  | .beq rs rt imm => wordI 0x04#6 rs rt imm
  | .j target => wordJ 0x02#6 target

/-- The bytes of an instruction in memory. -/
def encodeBytes (i : Instr) : List Byte := emitWord (encode i)

/-! ### opcode_table.json as data -/

/-- Whether the engine executes the instruction, the table's "executes" (R214, R260, R261, R262). -/
def Instr.executes : Instr → Bool
  | .sll _ _ _ => true
  | .srl _ _ _ => true
  | .add _ _ _ => true
  | .sub _ _ _ => true
  | .xor _ _ _ => true
  | .ori _ _ _ => true
  | .lui _ _ => true
  | .lw _ _ _ => false
  | .beq _ _ _ => false
  | .j _ => false

/-- The mnemonic of an instruction (R104). -/
def Instr.mnemonic : Instr → Token
  | .sll _ _ _ => ['s', 'l', 'l']
  | .srl _ _ _ => ['s', 'r', 'l']
  | .add _ _ _ => ['a', 'd', 'd']
  | .sub _ _ _ => ['s', 'u', 'b']
  | .xor _ _ _ => ['x', 'o', 'r']
  | .ori _ _ _ => ['o', 'r', 'i']
  | .lui _ _ => ['l', 'u', 'i']
  | .lw _ _ _ => ['l', 'w']
  | .beq _ _ _ => ['b', 'e', 'q']
  | .j _ => ['j']

/-- A row of opcode_table.json: a word belongs to it when the bits under `mask` are `pattern` (R107). -/
structure Row where
  mnemonic : Token
  pattern : Word
  mask : Word
  executes : Bool
  deriving DecidableEq, Repr

/-- The table's ten rows, in its order. -/
def opcodeTable : List Row := [
  ⟨['s', 'l', 'l'], 0x00000000#32, 0xFC00003F#32, true⟩,
  ⟨['s', 'r', 'l'], 0x00000002#32, 0xFC00003F#32, true⟩,
  ⟨['a', 'd', 'd'], 0x00000020#32, 0xFC00003F#32, true⟩,
  ⟨['s', 'u', 'b'], 0x00000022#32, 0xFC00003F#32, true⟩,
  ⟨['x', 'o', 'r'], 0x00000026#32, 0xFC00003F#32, true⟩,
  ⟨['o', 'r', 'i'], 0x34000000#32, 0xFC000000#32, true⟩,
  ⟨['l', 'u', 'i'], 0x3C000000#32, 0xFC000000#32, true⟩,
  ⟨['l', 'w'], 0x8C000000#32, 0xFC000000#32, false⟩,
  ⟨['b', 'e', 'q'], 0x10000000#32, 0xFC000000#32, false⟩,
  ⟨['j'], 0x08000000#32, 0xFC000000#32, false⟩]

/-- A word belongs to a row. -/
def Row.matchesWord (r : Row) (w : Word) : Bool := w &&& r.mask == r.pattern

/-- Two rows share a word: their patterns agree wherever both masks look. -/
def Row.overlaps (r q : Row) : Bool := r.pattern &&& q.mask == q.pattern &&& r.mask

/-! ### The host's question about one opcode-table row -/

/-- The word an opcode-table row of `nbits` bits stands for, the bits above `nbits` zero. -/
def tableWord (nbits w : Nat) : Word := BitVec.ofNat 32 (w % 2 ^ nbits)

/-- What the decoder reads from a row's bits, laid out in memory in the hardware's byte order. -/
def decodeTableWord (nbits w : Nat) : Option Instr :=
  match decodeBytes (emitWord (tableWord nbits w)) with
  | .ok (i, _) => some i
  | .error _ => none

end Sys2Proof
end

