-- ==== Sys2Proof/Machine/State.lean ====
section
/-! DEFINITION. The state of the Execution Engine as plain data (10_state.md R20 to R38), the reasons a step can
stop, and the state after reset. -/

namespace Sys2Proof.Machine

/-- A memory region (R28): `backing`, `base`, `max`. The backing's bytes are held as their number `len` and the cells
of those that are not `Config.unlistedByte`, keyed by byte address `base + k` (log entry 5). -/
structure Region where
  base : Word
  maxLen : Nat
  len : Nat
  cells : List Host.Cell
  deriving DecidableEq, Repr

/-- The region list, in insertion order (R28). -/
abbrev Memory := List Region

/-- The three states of a byte address (R52). -/
inductive ByteState where
  | initialized (b : Byte)
  | uninitialized
  | unmapped
  deriving DecidableEq, Repr

/-- The reason of a fatal condition (R35, R273). The address of `memoryUnknownAccess` is a natural: the byte past the
top of the address space has address `2^32` (R61). -/
inductive HaltReason where
  | unimplementedInstruction (word : Word) (pcOfWord : Word)
  | memoryUnknownAccess (address : Nat)
  deriving DecidableEq, Repr

/-- The machine state: the source's "Machine State" paragraph (R20, R25, R28, R31, R32) and the spec's two marks (R35,
R36). There are no flags (R33) and no system registers (R34). -/
structure State where
  /-- x[0] .. x[31] (R20); register 0 is an ordinary register (R22). -/
  gpr : Vector Word 32
  /-- f[0] .. f[31] (R31); no instruction reads or writes them. -/
  fpr : Vector Fpr 32
  /-- The multiply/divide result registers (R32); no instruction reads or writes them. -/
  hi : Word
  lo : Word
  /-- The program counter (R25). -/
  pc : Word
  /-- The memory regions (R28). -/
  regions : Memory
  /-- The `halt` mark (R35). -/
  halt : Option HaltReason
  /-- The `uninit_seen` mark (R36). -/
  uninitSeen : Bool
  deriving DecidableEq, Repr

/-- Why a step has no next state. -/
inductive Fault where
  /-- Raised by `step` alone, in a state whose `halt` mark is set: "the engine has no step" (R211). Safe: the spec
  gives no later state, and the state the condition left is the one before this step (log entry 6). -/
  | halted (reason : HaltReason)
  deriving DecidableEq, Repr

/-- Why an instruction has no meaning. -/
inductive Refusal where
  /-- Raised by an arm of `exec` whose instruction has no meaning yet; no arm raises it. Safe. -/
  | notModelled (mnemonic : String)
  deriving DecidableEq, Repr

/-- The outcome of a step or of a meaning. -/
abbrev Result := Host.Outcome State Fault Refusal

/-- The result of a memory primitive (R11): a value with the state after it (the read may have set `uninit_seen`), or
`MemoryUnknownAccess(address)` with the state it leaves (R59). -/
inductive Access (α : Type) where
  | done (v : α) (s : State)
  | unknown (address : Nat) (s : State)
  deriving DecidableEq, Repr

/-- Access widths of `MemRead` (R58, R67). -/
inductive Width where
  | byte
  | half
  | word
  deriving DecidableEq, Repr

/-- The open parameters that fix the state after reset (R8: TEXT_BASE, GPR_RESET, REGIONS_INIT; R31, R32, D14). -/
structure Params where
  textBase : Word
  gprReset : Vector Word 32
  fprReset : Vector Fpr 32
  hiReset : Word
  loReset : Word
  regionsInit : Memory
  deriving DecidableEq, Repr

/-- Reset as the construction of a fresh machine state from the parameters (R38, R300). -/
def State.resetWith (p : Params) : State where
  gpr := p.gprReset
  fpr := p.fprReset
  hi := p.hiReset
  lo := p.loReset
  pc := p.textBase
  regions := p.regionsInit
  halt := none
  uninitSeen := false

/-- The parameters this model names for the one fixed reset state (log entries 1 to 4). -/
def Params.named : Params where
  textBase := Config.textBase
  gprReset := Vector.replicate 32 0#32
  fprReset := Vector.replicate 32 (0#Config.fprWidth)
  hiReset := 0#32
  loReset := 0#32
  regionsInit := [⟨Config.textBase, Config.textMax, 0, []⟩]

/-- The machine right after reset (R38, R300), with nothing loaded. -/
def State.reset : State := State.resetWith Params.named

/-! ### The canonical form of memory -/

/-- The cells of a region are in canonical form: addresses strictly rising, no cell holds what an unlisted address
reads as. -/
def cellsWf : List Host.Cell → Bool
  | [] => true
  | c :: cs => c.2 != Config.unlistedByte && cs.all (fun d => decide (c.1 < d.1)) && cellsWf cs

/-- A region is well formed: canonical cells, all of them inside the backing, and `length(backing) <= max` (R29,
D32). -/
def Region.wf (r : Region) : Bool :=
  cellsWf r.cells &&
    r.cells.all (fun c => decide (r.base.toNat ≤ c.1 ∧ c.1 < r.base.toNat + r.len)) && decide (r.len ≤ r.maxLen)

/-- Every region is well formed. -/
def Memory.wf (m : Memory) : Bool := m.all Region.wf

/-- Two regions share no address (R29, R304). -/
def Region.disjoint (r q : Region) : Bool :=
  decide (r.maxLen = 0 ∨ q.maxLen = 0 ∨ r.base.toNat + r.maxLen ≤ q.base.toNat ∨ q.base.toNat + q.maxLen ≤ r.base.toNat)

/-- "No two regions may overlap" (R29, R304): the host's duty, not enforced by the engine. -/
def Memory.disjoint : Memory → Bool
  | [] => true
  | r :: rs => rs.all r.disjoint && Memory.disjoint rs

end Sys2Proof.Machine
end

