-- ==== Sys2Proof/Machine/Flags.lean ====
section
/-! DEFINITION. There are no status flags, condition codes or predicates (10_state.md R33), so there is no flag
computation. What stands here instead are the setters of the spec's two sticky marks (R35, R36). -/

namespace Sys2Proof.Machine

/-- The recoverable condition is recorded (R36, R56): the mark is set and never cleared. -/
def markUninit (s : State) : State := { s with uninitSeen := true }

/-- `halt <- reason` (R35): nothing is saved, no mode changes, control goes nowhere (R278). -/
def markHalt (r : HaltReason) (s : State) : State := { s with halt := some r }

end Sys2Proof.Machine
end

