-- ==== Sys2Proof/Machine/Ops.lean ====
section
/-! DEFINITION. The named operations every meaning and the step are built from: the register file, the segmented
memory (20_memory.md), the instruction fetch, and the fatal condition as one shared operation. -/

namespace Sys2Proof.Machine

/-! ### Registers (10_state.md R20, R22) -/

/-- `x[i]`: every index is an ordinary register, 0 too (R22). -/
def readReg (i : Idx5) (s : State) : Word := s.gpr[i.toNat]'i.isLt

/-- `x[i] <- v` (R22). -/
def writeReg (i : Idx5) (v : Word) (s : State) : State := { s with gpr := s.gpr.set i.toNat v i.isLt }

/-- The end of every executed operation: one general register is written, nothing else changes (R219). -/
def writeResult (i : Idx5) (v : Word) (s : State) : Result := .next (writeReg i v s)

/-! ### Cells -/

/-- The byte at an address of a cell list; an unlisted address reads as `Config.unlistedByte`. -/
def cellsGet (a : Nat) : List Host.Cell → Byte
  | [] => Config.unlistedByte
  | c :: cs => if c.1 = a then c.2 else cellsGet a cs

/-- Writing a byte into a cell list, keeping its canonical form. -/
def cellsPut (a : Nat) (v : Byte) : List Host.Cell → List Host.Cell
  | [] => if v = Config.unlistedByte then [] else [(a, v)]
  | c :: cs =>
    if a < c.1 then
      if v = Config.unlistedByte then c :: cs else (a, v) :: c :: cs
    else if a = c.1 then
      if v = Config.unlistedByte then cs else (a, v) :: cs
    else c :: cellsPut a v cs

/-- The canonical cells of bytes listed from an address up. -/
def cellsOfBytes (a : Nat) : List Byte → List Host.Cell
  | [] => []
  | b :: bs => if b = Config.unlistedByte then cellsOfBytes (a + 1) bs else (a, b) :: cellsOfBytes (a + 1) bs

/-! ### Regions (10_state.md R28, R29) -/

/-- A region registered with its initial backing (R304). -/
def Region.ofBytes (base : Word) (maxLen : Nat) (backing : List Byte) : Region :=
  ⟨base, maxLen, backing.length, cellsOfBytes base.toNat backing⟩

/-- A region with nothing in it. -/
def Region.empty : Region := ⟨0#32, 0, 0, []⟩

/-- Containment over the naturals, without wrap-around (R53, R54). -/
def Region.contains (r : Region) (a : Nat) : Bool := decide (r.base.toNat ≤ a ∧ a - r.base.toNat < r.maxLen)

/-- The byte at an offset of a region (R52, R55). -/
def Region.byteAt (r : Region) (k : Nat) : ByteState :=
  if k < r.len then .initialized (cellsGet (r.base.toNat + k) r.cells) else .uninitialized

/-- Writing the byte at an offset; a write at or past the backing's end grows it to `k + 1`, the gap zero (R62). -/
def Region.write (r : Region) (k : Nat) (v : Byte) : Region :=
  { r with len := max r.len (k + 1), cells := cellsPut (r.base.toNat + k) v r.cells }

/-- The backing as the list of bytes that R28 speaks of. -/
def Region.backing (r : Region) : List Byte :=
  (List.range r.len).map (fun k => cellsGet (r.base.toNat + k) r.cells)

/-! ### `map` (20_memory.md R53, R54, R61) -/

/-- The scan of R53: the first region, in insertion order, that contains the address, and the offset into it. -/
def scanRegions (m : Memory) (a : Nat) : Option (Nat × Nat) :=
  match m with
  | [] => none
  | r :: rs =>
    if r.contains a then some (0, a - r.base.toNat)
    else
      match scanRegions rs a with
      | some (i, k) => some (i + 1, k)
      | none => none

/-- `map` (R53) on a byte address given as a natural: an address of `2^32` or more belongs to no region (R61, D16). -/
def mapAddr (m : Memory) (a : Nat) : Option (Nat × Nat) := if a < 2 ^ 32 then scanRegions m a else none

/-- The region at an index that `mapAddr` answered. -/
def regionAt (m : Memory) (i : Nat) : Region := m.getD i Region.empty

/-- The state of one byte address (R52): this model's read of one byte of memory. -/
def byteAt (m : Memory) (a : Nat) : ByteState :=
  match mapAddr m a with
  | none => .unmapped
  | some (i, k) => (regionAt m i).byteAt k

/-! ### Reads (R55 to R61) -/

/-- `ReadByte` (R55): unmapped is fatal, mapped-uninitialized reads as 0 and sets the mark (R56). -/
def readByte (a : Nat) (s : State) : Access Byte :=
  match byteAt s.regions a with
  | .unmapped => .unknown a s
  | .initialized b => .done b s
  | .uninitialized => .done 0#8 (markUninit s)

/-- `n` byte reads in increasing address order, stopping at the first unmapped one (R58, R59). -/
def readBytes : Nat → Nat → State → Access (List Byte)
  | 0, _, s => .done [] s
  | n + 1, a, s =>
    match readByte a s with
    | .unknown b t => .unknown b t
    | .done b t =>
      match readBytes n (a + 1) t with
      | .unknown c u => .unknown c u
      | .done bs u => .done (b :: bs) u

/-- The number of bytes of an access width (R67). -/
def Width.bytes : Width → Nat
  | .byte => 1
  | .half => 2
  | .word => 4

/-- `MemRead` (R58): the unsigned value of the bytes in `MEM_ORDER` (R57), no alignment rule (R66). -/
def memRead (a : Word) (n : Width) (s : State) : Access Nat :=
  match readBytes n.bytes a.toNat s with
  | .unknown b t => .unknown b t
  | .done bs t => .done (natOfBytes Config.memOrder bs) t

/-! ### Writes (R62, R63) -/

/-- One byte write at a natural address (R62). -/
def writeByte (a : Nat) (v : Byte) (s : State) : Access Unit :=
  match mapAddr s.regions a with
  | none => .unknown a s
  | some (i, k) => .done () { s with regions := s.regions.modify i (fun r => r.write k v) }

/-- `MemWrite(a, 1, v)` (R62). -/
def memWrite (a : Word) (v : Byte) (s : State) : Access Unit := writeByte a.toNat v s

/-- Byte writes in increasing address order: how a host stores a word or an object stream (R63, R303). They stop at the
first unmapped byte and what was written before it stays (DESIGN CHOICE, log entry 16: the spec gives one byte's failure
alone). -/
def writeBytes : Nat → List Byte → State → Access Unit
  | _, [], s => .done () s
  | a, b :: bs, s =>
    match writeByte a b s with
    | .unknown c t => .unknown c t
    | .done _ t => writeBytes (a + 1) bs t

/-! ### Fetch and the fatal condition -/

/-- `fetch` (43_decode_dispatch.md R212): the word at `pc` in `OBJ_ORDER` (R64), then `pc <- pc +_32 4` (R26). -/
def fetch (s : State) : Access Word :=
  match readBytes 4 s.pc.toNat s with
  | .unknown b t => .unknown b t
  | .done bs t => .done (wordOfBytes bs) { t with pc := t.pc + Config.pcStep }

/-- Taking a fatal condition (R215, R273, R278): the one exception entry of this machine. It sets `halt` and nothing
else; there is no return from it (R279). -/
def takeFatal (r : HaltReason) (s : State) : Result := .next (markHalt r s)

/-- `UnimplementedInstruction(w, a)` raised at dispatch, when `pc` already holds `a +_32 4` (R215, R216). -/
def takeUnimplemented (w : Word) (s : State) : Result :=
  takeFatal (.unimplementedInstruction w (s.pc - Config.pcStep)) s

/-! ### Placing one byte for the host's fetch question -/

/-- A byte is made the initialized byte at an address: by a byte write where the address is mapped, else by
registering a one-byte region that holds it (R303, R304). Past the top of the address space there is nothing to place
a byte in (R61). -/
def placeByte (a : Nat) (v : Byte) (s : State) : State :=
  match writeByte a v s with
  | .done _ t => t
  | .unknown _ _ =>
    if a < 2 ^ 32 then { s with regions := s.regions ++ [Region.ofBytes (BitVec.ofNat 32 a) 1 [v]] } else s

/-- Bytes placed from an address up. -/
def placeBytes : Nat → List Byte → State → State
  | _, [], s => s
  | a, b :: bs, s => placeBytes (a + 1) bs (placeByte a b s)

end Sys2Proof.Machine
end

