-- ==== Sys2Proof/Machine/EncodeOnly.lean ====
section
/-! DEFINITION. The encode-only mnemonics (46_encode_only.md R260, R261, R262). Their effect, executed, is the fatal
condition `UnimplementedInstruction` carrying the fetched word and its address (R215): no register, no memory byte and
no program counter is touched. Every bit of such a word is a field, so the encoder gives the fetched word back (log
entry 7). -/

namespace Sys2Proof.Machine

/-- `lw rt, imm(rs)`, executed (R260): no address is formed and no memory is read. -/
def execLw (rt : Idx5) (imm : Half) (rs : Idx5) (s : State) : Result :=
  takeUnimplemented (encode (.lw rt imm rs)) s

/-- `beq rs, rt, label`, executed (R261): no comparison is made and `pc` is not redirected. -/
def execBeq (rs rt : Idx5) (imm : Half) (s : State) : Result :=
  takeUnimplemented (encode (.beq rs rt imm)) s

/-- `j label`, executed (R262). -/
def execJ (target : Target26) (s : State) : Result :=
  takeUnimplemented (encode (.j target)) s

end Sys2Proof.Machine
end

