-- ==== Sys2Proof/Machine/Operands.lean ====
section
/-! DEFINITION. The operand forms and the value functions of the executable operations (30_encoding.md R96, R97;
44_rtype_ops.md; 45_itype_ops.md). No operation writes a flag (R33). -/

namespace Sys2Proof.Machine

/-- `zext_32` (R10, R96). -/
def zext32 (imm : Half) : Word := imm.setWidth 32

/-- `sext_32` (R10): no executable operation uses it. -/
def sext32 (imm : Half) : Word := imm.signExtend 32

/-- `signed_32` (R10): the two's complement reading of a word. -/
def signed32 (v : Word) : Int := v.toInt

/-- The immediate in the upper half, the lower half zero (R96, R251). -/
def upper16 (imm : Half) : Word := imm ++ 0#16

/-- `v << shamt` (R10, R230). -/
def shiftLeft (v : Word) (shamt : Idx5) : Word := v <<< shamt.toNat

/-- `v >> shamt`, logical (R10, R231). -/
def shiftRight (v : Word) (shamt : Idx5) : Word := v >>> shamt.toNat

/-- `a +_32 b` (R10, R232): wraps, no condition (D5). -/
def add32 (a b : Word) : Word := a + b

/-- `a -_32 b` (R10, R233): wraps, no condition (D4, D5). -/
def sub32 (a b : Word) : Word := a - b

/-- `a ^ b` (R234). -/
def xor32 (a b : Word) : Word := a ^^^ b

/-- `a | zext_32(imm)` (R250). -/
def orImm (a : Word) (imm : Half) : Word := a ||| zext32 imm

end Sys2Proof.Machine
end

