-- ==== Sys2Proof/Machine/IType.lean ====
section
/-! DEFINITION. The two I-type operations (45_itype_ops.md). -/

namespace Sys2Proof.Machine

/-- `ori rt, rs, imm` (R250): the immediate is zero-extended. -/
def execOri (rt rs : Idx5) (imm : Half) (s : State) : Result :=
  writeResult rt (orImm (readReg rs s) imm) s

/-- `lui rt, imm` (R251): no register is read. -/
def execLui (rt : Idx5) (imm : Half) (s : State) : Result :=
  writeResult rt (upper16 imm) s

end Sys2Proof.Machine
end

