-- ==== Sys2Proof/Machine/RType.lean ====
section
/-! DEFINITION. The five R-type operations (44_rtype_ops.md). Each reads its sources before it writes its destination
(10_state.md R24) and raises no condition; `pc` was advanced by the fetch. -/

namespace Sys2Proof.Machine

/-- `sll rd, rt, shamt` (R230). -/
def execSll (rd rt : Idx5) (shamt : Idx5) (s : State) : Result :=
  writeResult rd (shiftLeft (readReg rt s) shamt) s

/-- `srl rd, rt, shamt` (R231). -/
def execSrl (rd rt : Idx5) (shamt : Idx5) (s : State) : Result :=
  writeResult rd (shiftRight (readReg rt s) shamt) s

/-- `add rd, rs, rt` (R232). -/
def execAdd (rd rs rt : Idx5) (s : State) : Result :=
  writeResult rd (add32 (readReg rs s) (readReg rt s)) s

/-- `sub rd, rs, rt` (R233). -/
def execSub (rd rs rt : Idx5) (s : State) : Result :=
  writeResult rd (sub32 (readReg rs s) (readReg rt s)) s

/-- `xor rd, rs, rt` (R234). -/
def execXor (rd rs rt : Idx5) (s : State) : Result :=
  writeResult rd (xor32 (readReg rs s) (readReg rt s)) s

end Sys2Proof.Machine
end

