-- ==== Sys2Proof/Machine/Dispatch.lean ====
section
/-! DEFINITION. The operation table (43_decode_dispatch.md R214, R215): one arm per constructor of Instr. -/

namespace Sys2Proof.Machine

def exec (i : Instr) (s : State) : Host.Outcome State Fault Refusal :=
  match i with
  | .sll rd rt shamt => Sys2Proof.Machine.execSll rd rt shamt s
  | .srl rd rt shamt => Sys2Proof.Machine.execSrl rd rt shamt s
  | .add rd rs rt => Sys2Proof.Machine.execAdd rd rs rt s
  | .sub rd rs rt => Sys2Proof.Machine.execSub rd rs rt s
  | .xor rd rs rt => Sys2Proof.Machine.execXor rd rs rt s
  | .ori rt rs imm => Sys2Proof.Machine.execOri rt rs imm s
  | .lui rt imm => Sys2Proof.Machine.execLui rt imm s
  | .lw rt imm rs => Sys2Proof.Machine.execLw rt imm rs s
  | .beq rs rt imm => Sys2Proof.Machine.execBeq rs rt imm s
  | .j target => Sys2Proof.Machine.execJ target s

end Sys2Proof.Machine
end

