-- ==== Sys2Proof/Machine/Step.lean ====
section
/-! DEFINITION. One step of the engine (43_decode_dispatch.md R210, R219). -/

namespace Sys2Proof.Machine

/-- The step of R219: nothing while halted (R211), else fetch, decode, dispatch. -/
def step (s : State) : Host.Outcome State Fault Refusal :=
  match s.halt with
  | some r => .fault (.halted r)
  | none =>
    match fetch s with
    | .unknown a t => takeFatal (.memoryUnknownAccess a) t
    | .done w t =>
      match decodeWord w with
      | .ok i => exec i t
      | .error _ => takeUnimplemented w t

/-- The state with the instruction of an opcode-table row stored where the next fetch reads, and no halt in the way
of that step (log entry 8). -/
def State.withFetchWord (s : State) (nbits w : Nat) : State :=
  { placeBytes s.pc.toNat (emitWord (tableWord nbits w)) s with halt := none }

end Sys2Proof.Machine
end

