-- ==== Sys2Proof/Machine/Naming.lean ====
section
/-! DEFINITION. Register Naming (41_register_naming.md): a register token to its 5-bit index. Used by the assembler
only; the decoder takes indices straight from the word (R98, R218). -/

namespace Sys2Proof.Machine

/-- One of the characters `0` .. `9`. -/
def isDigit (c : Char) : Bool := decide (48 ≤ c.toNat) && decide (c.toNat ≤ 57)

/-- The value of a digit character. -/
def digitValue (c : Char) : Nat := c.toNat - 48

/-- The decimal value of a string of digits, leading zeros allowed (R164, R168 f). -/
def decimalFrom (acc : Nat) : Token → Nat
  | [] => acc
  | c :: cs => decimalFrom (10 * acc + digitValue c) cs

def decimalValue (t : Token) : Nat := decimalFrom 0 t

/-- A token made only of decimal digits, and of at least one (R164, R166). -/
def isBareDecimal (t : Token) : Bool := !t.isEmpty && t.all isDigit

/-- The named aliases (R161): tested before the families, so `at` and `sp` are no family members. -/
def namedAlias (name : Token) : Option Nat :=
  if name = ['z', 'e', 'r', 'o'] then some 0
  else if name = ['a', 't'] then some 1
  else if name = ['g', 'p'] then some 28
  else if name = ['s', 'p'] then some 29
  else if name = ['f', 'p'] then some 30
  else if name = ['r', 'a'] then some 31
  else none

/-- The numbered families (R162) with the split range of `t` (R163); a digit outside the family's listed range is
no member (R167). -/
def familyIndex (letter : Char) (d : Nat) : Option Nat :=
  if letter = 'v' then (if d ≤ 1 then some (2 + d) else none)
  else if letter = 'a' then (if d ≤ 3 then some (4 + d) else none)
  else if letter = 't' then (if d ≤ 7 then some (8 + d) else if d ≤ 9 then some (16 + d) else none)
  else if letter = 's' then (if d ≤ 7 then some (16 + d) else none)
  else none

/-- The index a `$` name resolves to (R166): an alias, or one family letter and one digit. -/
def nameIndex (name : Token) : Option Nat :=
  match namedAlias name with
  | some n => some n
  | none =>
    match name with
    | [letter, c] => if isDigit c then familyIndex letter (digitValue c) else none
    | _ => none

/-- `regindex` (R166). -/
def regindex (t : Token) : Except AsmCondition Idx5 :=
  if isBareDecimal t then
    if decimalValue t ≤ 31 then .ok (BitVec.ofNat 5 (decimalValue t)) else .error (.invalidRegister t)
  else
    match t with
    | '$' :: name =>
      match nameIndex name with
      | some n => .ok (BitVec.ofNat 5 n)
      | none => .error (.malformedMnemonic t)
    | _ => .error (.malformedMnemonic t)

end Sys2Proof.Machine
end

