-- ==== Sys2Proof/Machine/Assembler.lean ====
section
/-! DEFINITION. The encoding side (42_assembler_forms.md): the catalog's minimum content, lookup, the argument forms,
the two passes. Pure functions; the machine's step uses none of them (R271). -/

namespace Sys2Proof.Machine

/-- The minimum catalog of R104 (D27; the opcodes of lw, beq and j and five spellings are general knowledge of the
spec's, G4, G8). The fixed shamt 0 in the `sll` and `srl` rows is this model's: R104 says "shamt from operand" and form
`RdRtShamt` never packs it (DESIGN CHOICE, log entry 15). -/
def minimumCatalog : Catalog where
  rTable := [
    (['s', 'l', 'l'], .r 0x00#6 0#5 .rdRtShamt),
    (['s', 'r', 'l'], .r 0x02#6 0#5 .rdRtShamt),
    (['a', 'd', 'd'], .r 0x20#6 0#5 .rdRsRt),
    (['s', 'u', 'b'], .r 0x22#6 0#5 .rdRsRt),
    (['x', 'o', 'r'], .r 0x26#6 0#5 .rdRsRt)]
  iTable := [
    (['o', 'r', 'i'], .i 0x0D#6 .rtRsImm),
    (['l', 'u', 'i'], .i 0x0F#6 .rtImm),
    (['l', 'w'], .i 0x23#6 .rtImmRs),
    (['b', 'e', 'q'], .i 0x04#6 .rsRtLabel)]
  jTable := [
    (['j'], .j 0x02#6)]

/-- A catalog holds the minimum content of R104: every row of `minimumCatalog`, in its table, letter for letter. That this
asks a fixed shamt of 0 of the `sll` and `srl` rows too is DESIGN CHOICE, log entry 15. -/
def holdsMinimum (c : Catalog) : Bool :=
  minimumCatalog.rTable.all (fun p => decide (p ∈ c.rTable)) &&
    minimumCatalog.iTable.all (fun p => decide (p ∈ c.iTable)) &&
    minimumCatalog.jTable.all (fun p => decide (p ∈ c.jTable))

/-- The check of a catalog at startup: refused when a table holds a row of another kind or a mnemonic stands twice
(R181, U16), or when a row of the minimum content is missing. DESIGN CHOICE, log entry 13: R104 makes that content a
minimum and does not say what becomes of a catalog without it. -/
def admitCatalog (c : Catalog) : Option Catalog := if c.wf && holdsMinimum c then some c else none

/-- Catalog lookup (R181): R, then I, then J; the first match wins. -/
def lookupMnemonic (c : Catalog) (m : Token) : Except AsmCondition Descriptor :=
  match c.rTable.lookup m with
  | some d => .ok d
  | none =>
    match c.iTable.lookup m with
    | some d => .ok d
    | none =>
      match c.jTable.lookup m with
      | some d => .ok d
      | none => .error (.unknownMnemonic m)

/-- The operand counts a descriptor's form accepts (R185, R193): two operands are accepted beside three by the
load/store form alone. -/
def arityOk : Descriptor → Nat → Bool
  | .r _ _ .rdRsRt, n => n == 3
  | .r _ _ .rdRtShamt, n => n == 3
  | .i _ .rtImm, n => n == 2
  | .i _ .rtImmRs, n => n == 3 || n == 2
  | .i _ .rsRtLabel, n => n == 3
  | .i _ .rtRsImm, n => n == 3
  | .j _, n => n == 1

/-- A label operand (R186, R197). -/
def labelAddress (labels : LabelTable) (name : Token) : Except AsmCondition Word :=
  match labels.lookup name with
  | some a => .ok a
  | none => .error (.undeclaredLabel name)

/-- The branch immediate (R195; `BRANCH_OFFSET_MODE` is `byte_delta`, D8, D9): the byte distance from the branch to
the label, refused when it does not fit 16 signed bits. -/
def branchImm (target cur : Word) : Except AsmCondition Half :=
  let delta : Int := (target.toNat : Int) - (cur.toNat : Int)
  if -32768 ≤ delta ∧ delta ≤ 32767 then .ok (BitVec.ofInt 16 delta) else .error (.overflow delta 16 (some .imm))

/-- A shift amount as the value `mask` checks (R186, R188): a number past 32 bits fits no field either. -/
def shamtValue (n : Nat) : Except AsmCondition Word :=
  if n < 2 ^ 32 then .ok (BitVec.ofNat 32 n) else .error (.overflow n 5 (some .shamt))

/-- A register index as an input of `pack` (R170). -/
def regWord (i : Idx5) : Word := i.setWidth 32

/-- A 6-bit fixed field as an input of `pack`. -/
def sixWord (v : Six) : Word := v.setWidth 32

/-- Form `RdRsRt` (R187). -/
def encodeRdRsRt (funct : Six) (shamt : Idx5) (a0 a1 a2 : Token) : Except AsmCondition Word := do
  let rd ← regindex a0
  let rs ← regindex a1
  let rt ← regindex a2
  packR (regWord rs) (regWord rt) (regWord rd) (regWord shamt) (sixWord funct)

/-- Form `RdRtShamt` (R188). -/
def encodeRdRtShamt (fe : FrontEnd) (funct : Six) (a0 a1 a2 : Token) : Except AsmCondition Word := do
  let rd ← regindex a0
  let rt ← regindex a1
  let sh ← shamtValue (fe.number a2)
  packR 0#32 (regWord rt) (regWord rd) sh (sixWord funct)

/-- Form `RtImm` (R189). -/
def encodeRtImm (fe : FrontEnd) (opcode : Six) (a0 a1 : Token) : Except AsmCondition Word := do
  let rt ← regindex a0
  packI (sixWord opcode) 0#32 (regWord rt) (fe.immediate a1)

/-- Form `RtRsImm` (R190). -/
def encodeRtRsImm (fe : FrontEnd) (opcode : Six) (a0 a1 a2 : Token) : Except AsmCondition Word := do
  let rt ← regindex a0
  let rs ← regindex a1
  packI (sixWord opcode) (regWord rs) (regWord rt) (fe.immediate a2)

/-- Form `RtImmRs` (R191) with the immediate already a value, so that the zero-offset form (R193) shares it. -/
def encodeRtImmRs (opcode : Six) (a0 : Token) (imm : Half) (a2 : Token) : Except AsmCondition Word := do
  let rt ← regindex a0
  let rs ← regindex a2
  packI (sixWord opcode) (regWord rs) (regWord rt) imm

/-- Form `RsRtLabel` (R194). -/
def encodeRsRtLabel (labels : LabelTable) (cur : Word) (opcode : Six) (a0 a1 l : Token) : Except AsmCondition Word := do
  let rs ← regindex a0
  let rt ← regindex a1
  let target ← labelAddress labels l
  let imm ← branchImm target cur
  packI (sixWord opcode) (regWord rs) (regWord rt) imm

/-- The J-type label form (R196). -/
def encodeLabel (labels : LabelTable) (opcode : Six) (l : Token) : Except AsmCondition Word := do
  let target ← labelAddress labels l
  packJ (sixWord opcode) target

/-- The operands of a descriptor's form to the word (R183, R185, R201): the arity comes before any operand. -/
def encodeForm (fe : FrontEnd) (labels : LabelTable) (cur : Word) (m : Token) (d : Descriptor) (args : List Token) :
    Except AsmCondition Word :=
  match d, args with
  | .r funct shamt .rdRsRt, [a0, a1, a2] => encodeRdRsRt funct shamt a0 a1 a2
  | .r funct _ .rdRtShamt, [a0, a1, a2] => encodeRdRtShamt fe funct a0 a1 a2
  | .i opcode .rtImm, [a0, a1] => encodeRtImm fe opcode a0 a1
  | .i opcode .rtRsImm, [a0, a1, a2] => encodeRtRsImm fe opcode a0 a1 a2
  | .i opcode .rtImmRs, [a0, a1, a2] => encodeRtImmRs opcode a0 (fe.immediate a1) a2
  | .i opcode .rtImmRs, [a0, a1] => encodeRtImmRs opcode a0 0#16 a1
  | .i opcode .rsRtLabel, [a0, a1, l] => encodeRsRtLabel labels cur opcode a0 a1 l
  | .j opcode, [l] => encodeLabel labels opcode l
  | _, _ => .error (.arityMismatch m args.length)

/-- One instruction statement to its word (R198, R201): lookup, arity, operands, pack. -/
def encodeStatement (fe : FrontEnd) (c : Catalog) (labels : LabelTable) (cur : Word) (m : Token) (args : List Token) :
    Except AsmCondition Word :=
  match lookupMnemonic c m with
  | .error e => .error e
  | .ok d => encodeForm fe labels cur m d args

/-- The directives that are accepted (R200, R270): mode markers, and `.eqv`, consumed by preprocessing. -/
def directiveSupported (name : Token) : Bool :=
  decide (name = ['.', 't', 'e', 'x', 't']) || decide (name = ['.', 'd', 'a', 't', 'a']) ||
    decide (name = ['.', 'e', 'q', 'v'])

/-- Flattening of nested sequences before pass 1 (R182). -/
def flattenTree : Tree → List Node
  | .node n => [n]
  | .seq ts => flattenTrees ts
where
  /-- Flattening of a list of trees. -/
  flattenTrees : List Tree → List Node
    | [] => []
    | t :: ts => flattenTree t ++ flattenTrees ts

/-- The address counter advances by 4 per instruction statement (R197); it is a 32-bit value and wraps (log entry
10). -/
def nextAddress (cur : Word) : Word := cur + 4#32

/-- Pass 1 (R197): the Label Table. `k` numbers the statement, `cur` is the address counter. -/
def pass1 (labels : LabelTable) (k : Nat) (cur : Word) : List Node → Except AsmError LabelTable
  | [] => .ok labels
  | .label n :: ns =>
    match labels.lookup n with
    | some _ => .error ⟨k, .duplicateLabel n⟩
    | none => pass1 (labels ++ [(n, cur)]) (k + 1) cur ns
  | .directive n _ :: ns =>
    if directiveSupported n then pass1 labels (k + 1) cur ns else .error ⟨k, .unsupportedDirective n⟩
  | .instr _ _ :: ns => pass1 labels (k + 1) (nextAddress cur) ns

/-- Pass 2 (R198): the words, in program order; the first error ends the run. -/
def pass2 (fe : FrontEnd) (c : Catalog) (labels : LabelTable) (k : Nat) (cur : Word) :
    List Node → Except AsmError (List Word)
  | [] => .ok []
  | .label _ :: ns => pass2 fe c labels (k + 1) cur ns
  | .directive _ _ :: ns => pass2 fe c labels (k + 1) cur ns
  | .instr m args :: ns =>
    match encodeStatement fe c labels cur m args with
    | .error e => .error ⟨k, e⟩
    | .ok w =>
      match pass2 fe c labels (k + 1) (nextAddress cur) ns with
      | .error e => .error e
      | .ok ws => .ok (w :: ws)

/-- The words of a flat statement sequence assembled at a text base (R197, R198). -/
def assembleNodes (fe : FrontEnd) (c : Catalog) (base : Word) (ns : List Node) : Except AsmError (List Word) :=
  match pass1 [] 0 base ns with
  | .error e => .error e
  | .ok labels => pass2 fe c labels 0 base ns

/-- The assembler: the object stream of a statement tree, or the first error (R143, R198, R271). -/
def assemble (fe : FrontEnd) (c : Catalog) (base : Word) (t : Tree) : Except AsmError (List Byte) :=
  match assembleNodes fe c base (flattenTree t) with
  | .error e => .error e
  | .ok ws => .ok (objectStream ws)

/-- The instruction statements of a sequence, counted (R143, R197). -/
def instrCount : List Node → Nat
  | [] => 0
  | .label _ :: ns => instrCount ns
  | .directive _ _ :: ns => instrCount ns
  | .instr _ _ :: ns => instrCount ns + 1

end Sys2Proof.Machine
end

