-- ==== Sys2Proof/Machine/HostOps.lean ====
section
/-! DEFINITION. What the host may do between steps (70_reset_and_hazards.md R303, R304, R305; 10_state.md R23):
launch, register a region, load an object stream, read and write memory, write a general register. No step uses
these. -/

namespace Sys2Proof.Machine

/-- The premises on a launch's region list (D15, D32, U9): well formed, pairwise disjoint, and some region contains
the text base. -/
def Params.ok (p : Params) : Bool :=
  Memory.wf p.regionsInit && Memory.disjoint p.regionsInit &&
    p.regionsInit.any (fun r => r.contains p.textBase.toNat)

/-- A launch is refused when its regions breach the premises (U9), else it is reset (R300). -/
def launch (p : Params) : Option State := if p.ok then some (State.resetWith p) else none

/-- Registering a region appends it (R304); overlap is not checked by this layer (R29). -/
def registerRegion (r : Region) (s : State) : State := { s with regions := s.regions ++ [r] }

/-- The premise on a registration after launch (R29, R304, D32): the region is well formed and shares no address with
one that is already registered. The host's duty; `registerRegion` does not check it. -/
def registrationOk (r : Region) (s : State) : Bool := r.wf && s.regions.all (fun q => q.disjoint r)

/-- The host's duty before a load of `n` bytes (R303): one region holds the base, has room for all of them counted from
the base, and takes every one of them at its place. -/
def loadRoomOk (base : Word) (n : Nat) (s : State) : Bool :=
  match mapAddr s.regions base.toNat with
  | none => false
  | some (i, k) =>
    decide (k + n ≤ (regionAt s.regions i).maxLen) &&
      (List.range n).all fun j => decide (mapAddr s.regions (base.toNat + j) = some (i, k + j))

/-- Loading an object stream from the text base upward by byte writes in increasing address order (R303): the writes
alone, whose premise is `loadRoomOk`. -/
def loadObject (base : Word) (stream : List Byte) (s : State) : Access Unit := writeBytes base.toNat stream s

/-- A host word store: four byte writes in `OBJ_ORDER` (R63). R63 gives no order of the four and no state after one of
them fails: they go in increasing order, and a failure keeps the bytes already written (DESIGN CHOICE, log entry 16). -/
def storeWord (a w : Word) (s : State) : Access Unit := writeBytes a.toNat (emitWord w) s

/-- A host action that changes the state (R305), a write of a general register among them (R23; log entry 11). Reading
registers, `pc` and the marks changes nothing; nothing the host does writes `pc` or a mark directly. -/
inductive HostAction where
  | readMem (a : Word) (n : Width)
  | writeMem (a : Word) (v : Byte)
  | writeReg (i : Idx5) (v : Word)
  | register (base : Word) (maxLen : Nat) (backing : List Byte)
  deriving DecidableEq, Repr

/-- The state after a primitive the host called; one that raised `MemoryUnknownAccess` fails and has no effect on
the state (R273, R305). -/
def Access.stateOr {α : Type} (s : State) : Access α → State
  | .done _ t => t
  | .unknown _ _ => s

/-- The state a primitive leaves, whichever way it ends (R59). -/
def Access.state {α : Type} : Access α → State
  | .done _ t => t
  | .unknown _ t => t

/-- The value a host primitive returned, if it did not fail. -/
def Access.value? {α : Type} : Access α → Option α
  | .done v _ => some v
  | .unknown _ _ => none

/-- The premise the host owes for an action: a registration meets `registrationOk`, nothing else owes any. -/
def hostActionOk : HostAction → State → Bool
  | .readMem _ _, _ => true
  | .writeMem _ _, _ => true
  | .writeReg _ _, _ => true
  | .register base maxLen backing, s => registrationOk (Region.ofBytes base maxLen backing) s

/-- The effect of a host action (R23, R305). -/
def hostApply : HostAction → State → State
  | .readMem a n, s => (memRead a n s).stateOr s
  | .writeMem a v, s => (memWrite a v s).stateOr s
  | .writeReg i v, s => writeReg i v s
  | .register base maxLen backing, s => registerRegion (Region.ofBytes base maxLen backing) s

end Sys2Proof.Machine
end

