-- ==== Sys2Proof/Machine/Boot.lean ====
section
/-! DEFINITION. The entry point (70_reset_and_hazards.md R301, R303): assembler, loader and engine start from one
parameter, the text base of `Params`. -/

namespace Sys2Proof.Machine

/-- The assembler for a machine of these parameters: its address counter starts at the machine's text base (R301). -/
def assembleFor (p : Params) (fe : FrontEnd) (c : Catalog) (t : Tree) : Except AsmError (List Byte) :=
  assemble fe c p.textBase t

/-- The loader for a machine of these parameters: from the machine's text base upward (R301, R303). A stream for which
the host's duty is not met is refused; that a breach is a refusal is DESIGN CHOICE, log entry 17. -/
def loadFor (p : Params) (stream : List Byte) (s : State) : Option State :=
  if loadRoomOk p.textBase stream.length s then
    match loadObject p.textBase stream s with
    | .done _ t => some t
    | .unknown _ _ => none
  else none

/-- A program from its statement tree to the state before its first step (R301, R303): the catalog admitted, the
program assembled, the machine launched with `pc` at the text base, the object stream loaded there. Nothing when one
of them fails. -/
def bootWith (p : Params) (fe : FrontEnd) (c : Catalog) (t : Tree) : Option State :=
  match admitCatalog c, launch p with
  | some c, some s =>
    match assembleFor p fe c t with
    | .error _ => none
    | .ok stream => loadFor p stream s
  | _, _ => none

end Sys2Proof.Machine
end

