-- ==== Sys2Proof/Safety.lean ====
section
/-! DEFINITION. What claims about this machine are stated in: what counts as a successful run, the pure view of a word
in memory, and the invariants of the machine state. -/

namespace Sys2Proof.Machine

/-- The engine takes a step only while this holds (R211). -/
def State.running (s : State) : Prop := s.halt = none

/-- A run of `n` steps from `s` to `t` that is successful: it ends with `halt = none` (R220, D25). -/
def SuccessfulRun (n : Nat) (s t : State) : Prop := Sys2Proof.core.run n s = .next t ∧ t.halt = none

/-- The byte a read of the address yields: a mapped-uninitialized byte yields 0 (R55, R56), an unmapped one nothing. -/
def peekByte (m : Memory) (a : Nat) : Option Byte :=
  match byteAt m a with
  | .initialized b => some b
  | .uninitialized => some 0#8
  | .unmapped => none

/-- The word at an address as the fetch reads it (R58, R64), if its four bytes are mapped. -/
def peekWord (m : Memory) (a : Nat) : Option Word :=
  match peekByte m a, peekByte m (a + 1), peekByte m (a + 2), peekByte m (a + 3) with
  | some b0, some b1, some b2, some b3 => some (loadWord b0 b1 b2 b3)
  | _, _, _, _ => none

/-- Some byte of the `n` from an address up is mapped-uninitialized: what makes a read of them set the mark (R56). -/
def anyUninit (m : Memory) (a n : Nat) : Bool :=
  (List.range n).any (fun j => decide (byteAt m (a + j) = .uninitialized))

/-- Nothing outside the general registers changed: no other register, no mark, no region and no byte of memory. -/
def SameOutsideGpr (s t : State) : Prop :=
  t.fpr = s.fpr ∧ t.hi = s.hi ∧ t.lo = s.lo ∧ t.pc = s.pc ∧ t.halt = s.halt ∧ t.uninitSeen = s.uninitSeen ∧
    t.regions = s.regions ∧ ∀ a, byteAt t.regions a = byteAt s.regions a

/-- The frame of an executed operation with destination `d`: every other general register is unchanged, and so is
everything else (R219; `pc` was advanced by the fetch, before). -/
def SameExceptReg (d : Idx5) (s t : State) : Prop :=
  (∀ k, k ≠ d → readReg k t = readReg k s) ∧ SameOutsideGpr s t

/-- The frame of a fatal condition: everything but the `halt` mark is unchanged (R215, R278). -/
def SameExceptHalt (s t : State) : Prop :=
  (∀ k, readReg k t = readReg k s) ∧ t.fpr = s.fpr ∧ t.hi = s.hi ∧ t.lo = s.lo ∧ t.pc = s.pc ∧
    t.uninitSeen = s.uninitSeen ∧ t.regions = s.regions ∧ ∀ a, byteAt t.regions a = byteAt s.regions a

/-- Executing `i` raises `UnimplementedInstruction` with the word `i` encodes to and the address 4 below `pc`, and
does nothing else (R215). -/
def RaisesUnimplemented (i : Instr) (s : State) : Prop :=
  ∃ t, exec i s = .next t ∧ t.halt = some (.unimplementedInstruction (encode i) (s.pc - 4#32)) ∧ SameExceptHalt s t

/-- The whole step as R219 writes it: the fetch is `MemRead(pc, 4)` of the memory subsystem (R58), the operations are
the rule's own expressions. `none` is "no step". The last three lines complete the match: the engine's decode never
answers an encode-only instruction. -/
def ruleStep (s : State) : Option State :=
  match s.halt with
  | some _ => none
  | none =>
    match memRead s.pc .word s with
    | .unknown b t => some { t with halt := some (.memoryUnknownAccess b) }
    | .done n t =>
      let u : State := { t with pc := s.pc + 4#32 }
      match engineDecode (BitVec.ofNat 32 n) with
      | none => some { u with halt := some (.unimplementedInstruction (BitVec.ofNat 32 n) s.pc) }
      | some (.sll rd rt sh) => some (writeReg rd (BitVec.ofNat 32 ((readReg rt u).toNat * 2 ^ sh.toNat)) u)
      | some (.srl rd rt sh) => some (writeReg rd (BitVec.ofNat 32 ((readReg rt u).toNat / 2 ^ sh.toNat)) u)
      | some (.add rd rs rt) => some (writeReg rd (readReg rs u + readReg rt u) u)
      | some (.sub rd rs rt) => some (writeReg rd (readReg rs u - readReg rt u) u)
      | some (.xor rd rs rt) => some (writeReg rd (readReg rs u ^^^ readReg rt u) u)
      | some (.ori rt rs imm) => some (writeReg rt (readReg rs u ||| imm.setWidth 32) u)
      | some (.lui rt imm) => some (writeReg rt (imm.setWidth 32 <<< 16) u)
      | some (.lw _ _ _) => none
      | some (.beq _ _ _) => none
      | some (.j _) => none

/-- Two states that agree on everything the executable subset can see: they may differ in the registers nothing reads,
`f`, `hi` and `lo` (R31, R32), and in the mark `uninit_seen`, which changes no behaviour (R36). -/
def AgreeOnVisible (s t : State) : Prop :=
  s.gpr = t.gpr ∧ s.pc = t.pc ∧ s.regions = t.regions ∧ s.halt = t.halt

/-- The bits of the fields an instruction's operation ignores on decode (R107): `rs` of the shifts and of `lui`, `shamt`
of `add`, `sub` and `xor`. -/
def ignoredBits : Instr → Word
  | .sll _ _ _ => 0x03E00000#32
  | .srl _ _ _ => 0x03E00000#32
  | .add _ _ _ => 0x000007C0#32
  | .sub _ _ _ => 0x000007C0#32
  | .xor _ _ _ => 0x000007C0#32
  | .ori _ _ _ => 0#32
  | .lui _ _ => 0x03E00000#32
  | .lw _ _ _ => 0#32
  | .beq _ _ _ => 0#32
  | .j _ => 0#32

/-- The fields an operation ignores are zero in the word (R107, R184): the canonical encoding. -/
def CanonicalWord (w : Word) : Instr → Prop
  | .sll _ _ _ => rsOf w = 0#5
  | .srl _ _ _ => rsOf w = 0#5
  | .add _ _ _ => shamtOf w = 0#5
  | .sub _ _ _ => shamtOf w = 0#5
  | .xor _ _ _ => shamtOf w = 0#5
  | .ori _ _ _ => True
  | .lui _ _ => rsOf w = 0#5
  | .lw _ _ _ => True
  | .beq _ _ _ => True
  | .j _ => True

/-- The halt mark tells the truth (R35, R216): an unimplemented word stands in memory at the recorded address, the
engine's decode selects nothing for it and `pc` is 4 past it; an unknown address is unmapped and is the first such
byte of the word at `pc`. -/
def HaltSound (s : State) : Prop :=
  match s.halt with
  | none => True
  | some (.unimplementedInstruction w a) =>
    peekWord s.regions a.toNat = some w ∧ engineDecode w = none ∧ s.pc = a + Config.pcStep
  | some (.memoryUnknownAccess b) =>
    byteAt s.regions b = .unmapped ∧ s.pc.toNat ≤ b ∧ b < s.pc.toNat + 4 ∧
      ∀ c, s.pc.toNat ≤ c → c < b → byteAt s.regions c ≠ .unmapped

/-- `pc` is word-aligned (R27). -/
def PcAligned (s : State) : Prop := s.pc.toNat % 4 = 0

/-- The memory of a state is in canonical form. -/
def MemoryCanonical (s : State) : Prop := Memory.wf s.regions = true

end Sys2Proof.Machine
end

