-- ==== Sys2Proof/Certificates/Slice0/Obligations.lean ====
section
/-! DEFINITION. The statements for the provers. Each docstring names the rule of spec/ a statement formalises, and
says where a clause rests on a decision the spec marks as its own (D<n>) or on a log entry of this model. -/

open Sys2Proof Sys2Proof.Machine

/-! ### The operations: result, completion and frame -/

/-- R230: `x[rd] <- (x[rt] * 2^shamt) mod 2^32`; register roles are general knowledge of the spec's (G7). -/
def Obligations.SllWritesShiftedProduct : Prop :=
  ∀ (rd rt shamt : Idx5) (s : State), ∃ t, exec (.sll rd rt shamt) s = .next t ∧
    (readReg rd t).toNat = (readReg rt s).toNat * 2 ^ shamt.toNat % 2 ^ 32 ∧ SameExceptReg rd s t

/-- R231: `x[rd] <- floor(x[rt] / 2^shamt)`, logical; register roles G7. -/
def Obligations.SrlWritesShiftedQuotient : Prop :=
  ∀ (rd rt shamt : Idx5) (s : State), ∃ t, exec (.srl rd rt shamt) s = .next t ∧
    (readReg rd t).toNat = (readReg rt s).toNat / 2 ^ shamt.toNat ∧ SameExceptReg rd s t

/-- R232: `x[rd] <- (x[rs] + x[rt]) mod 2^32` with no condition on overflow, the spec's decision D5. -/
def Obligations.AddWritesWrappedSum : Prop :=
  ∀ (rd rs rt : Idx5) (s : State), ∃ t, exec (.add rd rs rt) s = .next t ∧
    (readReg rd t).toNat = ((readReg rs s).toNat + (readReg rt s).toNat) % 2 ^ 32 ∧ SameExceptReg rd s t

/-- R233: `x[rd] <- (x[rs] - x[rt]) mod 2^32`: subtraction is the spec's decision D4, no overflow condition D5, the
operand order G7. -/
def Obligations.SubWritesWrappedDifference : Prop :=
  ∀ (rd rs rt : Idx5) (s : State), ∃ t, exec (.sub rd rs rt) s = .next t ∧
    ((readReg rd t).toNat : Int) = ((readReg rs s).toNat - (readReg rt s).toNat : Int) % 2 ^ 32 ∧ SameExceptReg rd s t

/-- R234: `x[rd] <- x[rs] ^ x[rt]`, bit by bit; the data flow is G7. -/
def Obligations.XorWritesBitwiseXor : Prop :=
  ∀ (rd rs rt : Idx5) (s : State), ∃ t, exec (.xor rd rs rt) s = .next t ∧
    (∀ k, k < 32 → (readReg rd t).getLsbD k = ((readReg rs s).getLsbD k != (readReg rt s).getLsbD k)) ∧
    SameExceptReg rd s t

/-- R250: bits 31:16 of the result are those of `x[rs]`, bits 15:0 are `x[rs][15:0] | imm`; the data flow is G7. -/
def Obligations.OriSetsLowHalfOnly : Prop :=
  ∀ (rt rs : Idx5) (imm : Half) (s : State), ∃ t, exec (.ori rt rs imm) s = .next t ∧
    (readReg rt t).toNat / 2 ^ 16 = (readReg rs s).toNat / 2 ^ 16 ∧
    (∀ k, k < 16 → (readReg rt t).getLsbD k = ((readReg rs s).getLsbD k || imm.getLsbD k)) ∧ SameExceptReg rt s t

/-- R251: the immediate in the upper 16 bits, the lower 16 zero; the destination is G7. -/
def Obligations.LuiWritesUpperHalf : Prop :=
  ∀ (rt : Idx5) (imm : Half) (s : State), ∃ t, exec (.lui rt imm) s = .next t ∧
    (readReg rt t).toNat = imm.toNat * 2 ^ 16 ∧ SameExceptReg rt s t

/-- R215, R260, R261, R262: `lw`, `beq` and `j`, executed, set `halt <- UnimplementedInstruction(w, a)` and change
nothing else. That the dispatched instruction carries its word through the encoder, and its address as `pc - 4`, is
this model's reading (log entry 7). -/
def Obligations.EncodeOnlyInstructionsRaiseUnimplemented : Prop :=
  (∀ (rt : Idx5) (imm : Half) (rs : Idx5) (s : State), RaisesUnimplemented (.lw rt imm rs) s) ∧
  (∀ (rs rt : Idx5) (imm : Half) (s : State), RaisesUnimplemented (.beq rs rt imm) s) ∧
  (∀ (target : Target26) (s : State), RaisesUnimplemented (.j target) s)

/-- R22: register 0 is an ordinary register. A write to any index is read back there and nowhere else; an instruction
with destination 0 writes `x[0]` whatever its sources are, and one with source 0, as its first or its second source,
computes on whatever `x[0]` holds, whatever its destination is. What the operations compute is R230 to R234, R250 and
R251, with D4 for `sub` and the register roles of G7 (log entry 12). -/
def Obligations.RegisterZeroIsOrdinary : Prop :=
  (∀ (i k : Idx5) (v : Word) (s : State), readReg k (writeReg i v s) = if k = i then v else readReg k s) ∧
  (∀ (a b sh : Idx5) (imm : Half) (s : State),
    exec (.sll 0#5 a sh) s = .next (writeReg 0#5 (readReg a s <<< sh.toNat) s) ∧
    exec (.srl 0#5 a sh) s = .next (writeReg 0#5 (readReg a s >>> sh.toNat) s) ∧
    exec (.add 0#5 a b) s = .next (writeReg 0#5 (readReg a s + readReg b s) s) ∧
    exec (.sub 0#5 a b) s = .next (writeReg 0#5 (readReg a s - readReg b s) s) ∧
    exec (.xor 0#5 a b) s = .next (writeReg 0#5 (readReg a s ^^^ readReg b s) s) ∧
    exec (.ori 0#5 a imm) s = .next (writeReg 0#5 (readReg a s ||| imm.setWidth 32) s) ∧
    exec (.lui 0#5 imm) s = .next (writeReg 0#5 (imm.setWidth 32 <<< 16) s)) ∧
  ∀ (d a sh : Idx5) (imm : Half) (s : State),
    exec (.sll d 0#5 sh) s = .next (writeReg d (readReg 0#5 s <<< sh.toNat) s) ∧
    exec (.srl d 0#5 sh) s = .next (writeReg d (readReg 0#5 s >>> sh.toNat) s) ∧
    exec (.add d 0#5 a) s = .next (writeReg d (readReg 0#5 s + readReg a s) s) ∧
    exec (.add d a 0#5) s = .next (writeReg d (readReg a s + readReg 0#5 s) s) ∧
    exec (.sub d 0#5 a) s = .next (writeReg d (readReg 0#5 s - readReg a s) s) ∧
    exec (.sub d a 0#5) s = .next (writeReg d (readReg a s - readReg 0#5 s) s) ∧
    exec (.xor d 0#5 a) s = .next (writeReg d (readReg 0#5 s ^^^ readReg a s) s) ∧
    exec (.xor d a 0#5) s = .next (writeReg d (readReg a s ^^^ readReg 0#5 s) s) ∧
    exec (.ori d 0#5 imm) s = .next (writeReg d (readReg 0#5 s ||| imm.setWidth 32) s)

/-- R252: `lui rt, hi16` then `ori rt, rt, lo16` leaves `hi16 ++ lo16`, for every pair of halves. -/
def Obligations.LuiThenOriBuildsConstant : Prop :=
  ∀ (rt : Idx5) (hi lo : Half) (s t u : State), exec (.lui rt hi) s = .next t → exec (.ori rt rt lo) t = .next u →
    readReg rt u = (hi ++ lo : BitVec (16 + 16)) ∧ ∀ k, k ≠ rt → readReg k u = readReg k s

/-! ### The step -/

/-- R219, R210: when the word at `pc` decodes to a well-formed instruction, the step is that instruction at the state
whose `pc` has advanced by 4 and whose `uninit_seen` records whether a fetched byte was mapped-uninitialized (D20). The
decoder is this model's `decodeWord`: beyond the engine's own decode (R217) it reads `lw`, `beq` and `j`, whose words
R217 leaves `Unimplemented` and whose meaning is that condition (log entry 7). -/
def Obligations.StepRunsTheDecodedInstruction : Prop :=
  ∀ (s : State) (w : Word) (i : Instr), s.halt = none → peekWord s.regions s.pc.toNat = some w →
    decodeWord w = .ok i → i.wf = true →
    step s = exec i { s with
      pc := s.pc + 4#32
      uninitSeen := s.uninitSeen || anyUninit s.regions s.pc.toNat 4 }

/-- R219: every step is the rule's own pseudocode, over the engine's own decode, and there is a step exactly while
`halt` is not set (R211, D19). -/
def Obligations.StepRefinesWholeStepRule : Prop :=
  ∀ s : State, (∀ t, step s = .next t ↔ ruleStep s = some t) ∧ (s.halt = none ↔ ∃ t, step s = .next t)

/-- R219: "A step that executes an operation changes exactly: `pc` (plus 4), one general register, and possibly
`uninit_seen`." -/
def Obligations.SuccessfulStepChangesExactly : Prop :=
  ∀ s t : State, step s = .next t → t.halt = none →
    t.pc = s.pc + 4#32 ∧ (∃ d, ∀ k, k ≠ d → readReg k t = readReg k s) ∧
    t.uninitSeen = (s.uninitSeen || anyUninit s.regions s.pc.toNat 4) ∧
    t.fpr = s.fpr ∧ t.hi = s.hi ∧ t.lo = s.lo ∧ t.regions = s.regions ∧
    ∀ a, byteAt t.regions a = byteAt s.regions a

/-- R272: a step ends in a fatal condition exactly when a byte of the word at `pc` is unmapped or the engine's decode
selects nothing for that word. -/
def Obligations.FatalStepIffUnmappedOrUnimplemented : Prop :=
  ∀ s t : State, step s = .next t →
    (t.halt ≠ none ↔ peekWord s.regions s.pc.toNat = none ∨
      ∃ w, peekWord s.regions s.pc.toNat = some w ∧ engineDecode w = none)

/-- R212, R216, R276: a fetch whose byte at offset `j` is the first unmapped one ends the step with that byte's address
in `halt`; `pc`, every register and every byte of memory are unchanged, and `uninit_seen` is set exactly when an earlier
byte of the word was mapped-uninitialized. -/
def Obligations.FetchOfUnmappedByteHalts : Prop :=
  ∀ (s : State) (j : Nat), s.halt = none → j < 4 → byteAt s.regions (s.pc.toNat + j) = .unmapped →
    (∀ l, l < j → byteAt s.regions (s.pc.toNat + l) ≠ .unmapped) →
    ∃ t, step s = .next t ∧ t.halt = some (.memoryUnknownAccess (s.pc.toNat + j)) ∧ t.pc = s.pc ∧
      (∀ k, readReg k t = readReg k s) ∧ t.fpr = s.fpr ∧ t.hi = s.hi ∧ t.lo = s.lo ∧ t.regions = s.regions ∧
      t.uninitSeen = (s.uninitSeen || anyUninit s.regions s.pc.toNat j)

/-- R215: "When `decode(w)` is `Unimplemented`: `halt <- UnimplementedInstruction(w, a)` with `a` the address the word
was fetched from; no register and no memory byte changes." -/
def Obligations.UnimplementedWordHalts : Prop :=
  ∀ (s : State) (w : Word), s.halt = none → peekWord s.regions s.pc.toNat = some w → engineDecode w = none →
    ∃ t, step s = .next t ∧ t.halt = some (.unimplementedInstruction w s.pc) ∧
      (∀ k, readReg k t = readReg k s) ∧ t.fpr = s.fpr ∧ t.hi = s.hi ∧ t.lo = s.lo ∧ t.regions = s.regions ∧
      ∀ a, byteAt t.regions a = byteAt s.regions a

/-- R211: while `halt` is set the engine has no step, at once and for every number of steps; the fault that says so is
this model's form of it (D19, log entry 6). -/
def Obligations.HaltedEngineTakesNoStep : Prop :=
  ∀ (s : State) (r : HaltReason), s.halt = some r →
    step s = .fault (.halted r) ∧ ∀ n, Sys2Proof.core.run (n + 1) s = .fault (.halted r)

/-- R213, R111: a word fetched wholly from mapped-uninitialized bytes executes as a no-operation: only `pc` and the
mark change. The zero of such a byte is the spec's decision D20. -/
def Obligations.UninitializedWordIsNoOperation : Prop :=
  ∀ s : State, s.halt = none → (∀ j, j < 4 → byteAt s.regions (s.pc.toNat + j) = .uninitialized) →
    step s = .next { s with pc := s.pc + 4#32, uninitSeen := true }

/-! ### Invariants and whole-machine rules -/

/-- R35, R216: from every state whose halt mark tells the truth, every step leads to such a state. -/
def Obligations.StepKeepsHaltSound : Prop :=
  ∀ s t : State, HaltSound s → step s = .next t → HaltSound t

/-- R38: at reset, for all parameters, `halt` is `none`, so the mark tells the truth. -/
def Obligations.ResetIsHaltSound : Prop := ∀ p : Params, HaltSound (State.resetWith p)

/-- R27: "`pc` is word-aligned at every step exactly when `TEXT_BASE` is, since the only update is `+ 4`." -/
def Obligations.StepKeepsPcAlignment : Prop :=
  (∀ s t : State, step s = .next t → (PcAligned t ↔ PcAligned s)) ∧
  (∀ p : Params, PcAligned (State.resetWith p) ↔ p.textBase.toNat % 4 = 0)

/-- The canonical form of memory (log entry 5) is kept by every step, every host action and every load; a region is
registered with a backing no longer than its maximum length (D32). That the host may write a register is log entry
11's, what a failed load leaves log entry 16's. -/
def Obligations.MemoryStaysCanonical : Prop :=
  (∀ s t : State, MemoryCanonical s → step s = .next t → MemoryCanonical t) ∧
  (∀ (a : Word) (n : Width) (s : State), MemoryCanonical s → MemoryCanonical (hostApply (.readMem a n) s)) ∧
  (∀ (a : Word) (v : Byte) (s : State), MemoryCanonical s → MemoryCanonical (hostApply (.writeMem a v) s)) ∧
  (∀ (i : Idx5) (v : Word) (s : State), MemoryCanonical s → MemoryCanonical (hostApply (.writeReg i v) s)) ∧
  (∀ (b : Word) (m : Nat) (bs : List Byte) (s : State), bs.length ≤ m → MemoryCanonical s →
    MemoryCanonical (hostApply (.register b m bs) s)) ∧
  (∀ (b : Word) (bs : List Byte) (s : State), MemoryCanonical s → MemoryCanonical (loadObject b bs s).state)

/-- The reset state's memory is in canonical form (log entries 4 and 5). -/
def Obligations.ResetMemoryIsCanonical : Prop := MemoryCanonical State.reset

/-- R263: execution is a straight line. After a successful run of `n` steps `pc` is `4n` further and no byte of memory
has changed (R51). -/
def Obligations.SuccessfulRunIsStraightLine : Prop :=
  ∀ (n : Nat) (s t : State), SuccessfulRun n s t →
    t.pc = s.pc + BitVec.ofNat 32 (4 * n) ∧ t.regions = s.regions ∧ t.fpr = s.fpr ∧ t.hi = s.hi ∧ t.lo = s.lo ∧
    (s.uninitSeen = true → t.uninitSeen = true)

/-- R220: a run that reaches an unmapped word does not succeed: if the byte `4n` past `pc`, below `2^32`, is unmapped,
no run of more than `n` steps is successful. -/
def Obligations.RunPastMappedMemoryFails : Prop :=
  ∀ (n k : Nat) (s : State), s.pc.toNat + 4 * n < 2 ^ 32 → byteAt s.regions (s.pc.toNat + 4 * n) = .unmapped →
    n < k → ¬ ∃ t, SuccessfulRun k s t

/-- R31, R32, R36: what the executable subset can see decides what it does. Two states that agree there step alike: both
fault or both step to states that agree again, whatever `f`, `hi`, `lo` and `uninit_seen` hold. -/
def Obligations.UnreadStateHasNoInfluence : Prop :=
  ∀ s t : State, AgreeOnVisible s t →
    (∀ s', step s = .next s' → ∃ t', step t = .next t' ∧ AgreeOnVisible s' t') ∧
    (∀ r, step s = .fault r → step t = .fault r)

/-- R300: the state after reset, for all parameters; what `f`, `hi` and `lo` hold there (parameters of this model) is
seen by nothing. -/
def Obligations.ResetFollowsParameters : Prop :=
  ∀ p : Params, (State.resetWith p).pc = p.textBase ∧ (State.resetWith p).halt = none ∧
    (State.resetWith p).uninitSeen = false ∧ (∀ i, readReg i (State.resetWith p) = p.gprReset[i.toNat]'i.isLt) ∧
    (State.resetWith p).regions = p.regionsInit ∧
    ∀ (f : Vector Fpr 32) (h l : Word),
      AgreeOnVisible (State.resetWith p) (State.resetWith { p with fprReset := f, hiReset := h, loReset := l })

/-- D15, D32, U9, R300: a launch is granted exactly when the regions are well formed, share no address and one of them
contains the text base, and what it answers is the state after reset from the parameters; the premises are the spec's
decisions, their check at launch is this model's (log entry 4). -/
def Obligations.LaunchGrantedIffRegionsSound : Prop :=
  ∀ (p : Params) (s : State), launch p = some s ↔
    s = State.resetWith p ∧ Memory.wf p.regionsInit = true ∧
    (p.regionsInit.Pairwise fun r q => ¬ ∃ a, r.contains a = true ∧ q.contains a = true) ∧
    ∃ r ∈ p.regionsInit, r.contains p.textBase.toNat = true

/-! ### Memory -/

/-- R53: `map` answers the first region, in insertion order, that contains the address, and the offset into it. -/
def Obligations.MapFindsFirstContainingRegion : Prop :=
  ∀ (m : Memory) (a : Word) (i k : Nat), mapAddr m a.toNat = some (i, k) ↔
    ∃ r, m[i]? = some r ∧ r.base.toNat ≤ a.toNat ∧ a.toNat - r.base.toNat < r.maxLen ∧ k = a.toNat - r.base.toNat ∧
      ∀ j q, j < i → m[j]? = some q → ¬ (q.base.toNat ≤ a.toNat ∧ a.toNat - q.base.toNat < q.maxLen)

/-- R55: the three cases of `ReadByte`. -/
def Obligations.ReadByteFollowsThreeStates : Prop :=
  ∀ (a : Word) (s : State),
    (mapAddr s.regions a.toNat = none → readByte a.toNat s = .unknown a.toNat s) ∧
    (∀ i k r, mapAddr s.regions a.toNat = some (i, k) → s.regions[i]? = some r → ∀ h : k < r.backing.length,
      readByte a.toNat s = .done (r.backing[k]'h) s) ∧
    (∀ i k r, mapAddr s.regions a.toNat = some (i, k) → s.regions[i]? = some r → r.backing.length ≤ k →
      readByte a.toNat s = .done 0#8 { s with uninitSeen := true })

/-- R58, R59: a read of mapped bytes answers their little-endian value (`MEM_ORDER`, D7) and sets the mark exactly when
one of them was mapped-uninitialized; nothing else changes. -/
def Obligations.MemReadComposesBytes : Prop :=
  ∀ (a : Word) (n : Width) (s : State) (b : Nat → Byte),
    (∀ j, j < n.bytes → peekByte s.regions (a.toNat + j) = some (b j)) →
    memRead a n s = .done (((List.range n.bytes).map fun j => (b j).toNat * 2 ^ (8 * j)).sum)
      { s with uninitSeen := s.uninitSeen || anyUninit s.regions a.toNat n.bytes }

/-- R59, R61: a read whose byte at offset `j` is the first unmapped one fails with that byte's address, a natural that
may be `2^32` (D16), and leaves the mark set exactly by the bytes before it. -/
def Obligations.MemReadFailsAtFirstUnmappedByte : Prop :=
  ∀ (a : Word) (n : Width) (s : State) (j : Nat), j < n.bytes → byteAt s.regions (a.toNat + j) = .unmapped →
    (∀ l, l < j → byteAt s.regions (a.toNat + l) ≠ .unmapped) →
    memRead a n s = .unknown (a.toNat + j)
      { s with uninitSeen := s.uninitSeen || anyUninit s.regions a.toNat j }

/-- R61: no access passes the top of the address space, whatever regions are registered (D16). -/
def Obligations.NoReadPassesTopOfAddressSpace : Prop :=
  ∀ (a : Word) (n : Width) (s : State), 2 ^ 32 < a.toNat + n.bytes → ∀ v t, memRead a n s ≠ .done v t

/-- R62: a byte write to a mapped address succeeds and is read back; every other byte reads as before, but for the gap
between the region's old end and the address, which becomes initialized zero (D11); nothing else changes. -/
def Obligations.ByteWriteIsReadBackAndFramed : Prop :=
  ∀ (a : Word) (v : Byte) (s : State) (i k : Nat) (r : Region), MemoryCanonical s →
    mapAddr s.regions a.toNat = some (i, k) → s.regions[i]? = some r →
    ∃ t, memWrite a v s = .done () t ∧ byteAt t.regions a.toNat = .initialized v ∧
      (∀ b l, b ≠ a.toNat → mapAddr s.regions b = some (i, l) → r.len ≤ l → l < k →
        byteAt t.regions b = .initialized 0#8) ∧
      (∀ b, b ≠ a.toNat → (∀ l, mapAddr s.regions b = some (i, l) → l < r.len ∨ k < l) →
        byteAt t.regions b = byteAt s.regions b) ∧
      (∀ q, readReg q t = readReg q s) ∧ t.fpr = s.fpr ∧ t.hi = s.hi ∧ t.lo = s.lo ∧ t.pc = s.pc ∧
      t.halt = s.halt ∧ t.uninitSeen = s.uninitSeen

/-- R62: the backing after a write at an offset below `max`, as the rule writes it (growth is D11). -/
def Obligations.RegionWriteGrowsBacking : Prop :=
  ∀ (r : Region) (k : Nat) (v : Byte), r.wf = true → k < r.maxLen →
    (r.write k v).backing =
      if k < r.backing.length then r.backing.set k v
      else r.backing ++ List.replicate (k - r.backing.length) 0#8 ++ [v]

/-- R62, R273, R305: a write to an unmapped address fails with that address, and as a host action has no effect (D19). A
host read that meets an unmapped byte has no effect either, `uninit_seen` included: that is this model's reading of R273
and R305 (DEDUCED, log entry 11), while the primitive `MemRead` leaves the mark of the bytes before the failing one
(R59). -/
def Obligations.UnmappedHostAccessHasNoEffect : Prop :=
  (∀ (a : Word) (v : Byte) (s : State), byteAt s.regions a.toNat = .unmapped →
    memWrite a v s = .unknown a.toNat s ∧ hostApply (.writeMem a v) s = s) ∧
  (∀ (a : Word) (n : Width) (s : State) (j : Nat), j < n.bytes → byteAt s.regions (a.toNat + j) = .unmapped →
    hostApply (.readMem a n) s = s)

/-- R23, R29, R304, R305: what a host action does. It moves no region, never changes a base or a maximum length, never
shrinks a backing, and no address leaves its region: a mapped byte stays mapped, an initialized one initialized. `pc`,
`halt`, `f`, `hi` and `lo` are unchanged, and the general registers but for a host register write, which writes its own
register alone; that the host has this write is R23's word against R305's "describes no host write" (log entry 11). Under
the premise R304 names, that a registered region is well formed and shares no address with an earlier one, regions stay
disjoint and every address of the new region maps to it. -/
def Obligations.RegionsAreAppendOnly : Prop :=
  (∀ (x : HostAction) (s : State),
    (∀ (i : Nat) (r : Region), s.regions[i]? = some r → ∃ q : Region, (hostApply x s).regions[i]? = some q ∧
      q.base = r.base ∧ q.maxLen = r.maxLen ∧ r.len ≤ q.len) ∧
    (∀ a p, mapAddr s.regions a = some p → mapAddr (hostApply x s).regions a = some p) ∧
    (∀ a b, byteAt s.regions a = .initialized b → ∃ c, byteAt (hostApply x s).regions a = .initialized c) ∧
    (hostApply x s).pc = s.pc ∧ (hostApply x s).halt = s.halt ∧ (hostApply x s).fpr = s.fpr ∧
    (hostApply x s).hi = s.hi ∧ (hostApply x s).lo = s.lo ∧
    ((∀ i v, x ≠ .writeReg i v) → ∀ k, readReg k (hostApply x s) = readReg k s) ∧
    (hostActionOk x s = true → Memory.disjoint s.regions = true → Memory.disjoint (hostApply x s).regions = true)) ∧
  (∀ (i k : Idx5) (v : Word) (s : State),
    readReg k (hostApply (.writeReg i v) s) = (if k = i then v else readReg k s) ∧
    (hostApply (.writeReg i v) s).regions = s.regions ∧
    (hostApply (.writeReg i v) s).uninitSeen = s.uninitSeen) ∧
  ∀ (b : Word) (m : Nat) (bs : List Byte) (s : State) (a : Nat),
    hostActionOk (.register b m bs) s = true → b.toNat ≤ a → a - b.toNat < m → a < 2 ^ 32 →
    mapAddr (hostApply (.register b m bs) s).regions a = some (s.regions.length, a - b.toNat)

/-- R303, R143, R73: under the host's duty, one region with room for the whole program, loading an object stream
succeeds; and after any load that succeeds every word of it stands in memory at its place, and that is what a fetch
there reads (the loader's procedure is the spec's decision D30). -/
def Obligations.LoadedProgramIsInPlace : Prop :=
  (∀ (base : Word) (bs : List Byte) (s : State), loadRoomOk base bs.length s = true →
    ∃ t, loadObject base bs s = .done () t) ∧
  ∀ (base : Word) (ws : List Word) (s t : State), MemoryCanonical s →
    loadObject base (objectStream ws) s = .done () t →
    (∀ i w, ws[i]? = some w → peekWord t.regions (base.toNat + 4 * i) = some w ∧
      anyUninit t.regions (base.toNat + 4 * i) 4 = false) ∧
    t.pc = s.pc ∧ t.halt = s.halt ∧ t.uninitSeen = s.uninitSeen ∧ ∀ k, readReg k t = readReg k s

/-! ### The codec -/

/-- R112, R107: decoding an encoded instruction gives it back, from the word and from bytes. The decoder is this model's
`decodeWord`, which reads `lw`, `beq` and `j` beside the engine's own selections (log entry 7; their opcodes are G8);
R217's decode leaves those words `Unimplemented`. -/
def Obligations.DecodeOfEncodeIsIdentity : Prop :=
  ∀ (i : Instr) (rest : List Byte), i.wf = true →
    decodeWord (encode i) = .ok i ∧ decodeBytes (encodeBytes i ++ rest) = .ok (i, rest)

/-- R107: the encoder's word of a decoded word agrees with it in every bit but those of the fields its operation ignores,
which it makes zero (D29); so it is the word itself exactly when those fields are zero. Whatever they hold, the word
decodes to the same instruction with the same operands. That the decoder reads `lw`, `beq` and `j` is log entry 7. -/
def Obligations.EncodeOfDecodeIsCanonicalWord : Prop :=
  ∀ (w : Word) (i : Instr), decodeWord w = .ok i →
    encode i = w &&& ~~~ignoredBits i ∧ (encode i = w ↔ CanonicalWord w i) ∧
    ∀ v : Word, v &&& ~~~ignoredBits i = w &&& ~~~ignoredBits i → decodeWord v = .ok i

/-- R105, R106, R107: a word belongs to a row of opcode_table.json exactly when the decoder reads that row's mnemonic
from it, and the engine's decode selects it exactly when the row executes. That the decoder reads the rows `lw`, `beq`
and `j`, words the engine finds fatal (R110), is log entry 7; their opcodes are G8 (log entry 12). -/
def Obligations.DecoderAgreesWithOpcodeTable : Prop :=
  ∀ (w : Word) (r : Row), r ∈ opcodeTable →
    (r.matchesWord w = true ↔ ∃ i, decodeWord w = .ok i ∧ i.mnemonic = r.mnemonic) ∧
    (r.matchesWord w = true → ((∃ i, engineDecode w = some i) ↔ r.executes = true))

/-- R109, R217: exactly two classes of word: the engine's decode selects an instruction exactly for opcode 0 with one of
five functs and for opcodes 0x0D and 0x0F (six opcode bits are D2), and it is that operation with the word's own fields
at their places (D3), whatever the other fields hold (R107). -/
def Obligations.ExecutableWordsAreSevenSelections : Prop :=
  (∀ w : Word, (∃ i, engineDecode w = some i) ↔
    (opcodeOf w = 0x00#6 ∧ (functOf w = 0x00#6 ∨ functOf w = 0x02#6 ∨ functOf w = 0x20#6 ∨ functOf w = 0x22#6 ∨
      functOf w = 0x26#6)) ∨ opcodeOf w = 0x0D#6 ∨ opcodeOf w = 0x0F#6) ∧
  ∀ (w : Word) (i : Instr), engineDecode w = some i ↔
    (opcodeOf w = 0x00#6 ∧ functOf w = 0x00#6 ∧ i = .sll (rdOf w) (rtOf w) (shamtOf w)) ∨
    (opcodeOf w = 0x00#6 ∧ functOf w = 0x02#6 ∧ i = .srl (rdOf w) (rtOf w) (shamtOf w)) ∨
    (opcodeOf w = 0x00#6 ∧ functOf w = 0x20#6 ∧ i = .add (rdOf w) (rsOf w) (rtOf w)) ∨
    (opcodeOf w = 0x00#6 ∧ functOf w = 0x22#6 ∧ i = .sub (rdOf w) (rsOf w) (rtOf w)) ∨
    (opcodeOf w = 0x00#6 ∧ functOf w = 0x26#6 ∧ i = .xor (rdOf w) (rsOf w) (rtOf w)) ∨
    (opcodeOf w = 0x0D#6 ∧ i = .ori (rtOf w) (rsOf w) (immOf w)) ∨
    (opcodeOf w = 0x0F#6 ∧ i = .lui (rtOf w) (immOf w))

/-- No two rows of opcode_table.json share a word (R105, R106). -/
def Obligations.OpcodeTableRowsDisjoint : Prop :=
  opcodeTable.Pairwise fun r q => r.overlaps q = false

/-- Words written out from the layouts of R92, R93 and R94 decode to the instructions they stand for. For the engine's
own decode the last two words are `Unimplemented` (95_test_vectors.md 2.7); that this model's decoder reads `lw` and `j`
from them is log entry 7. -/
def Obligations.SampleWordsDecode : Prop :=
  decodeWord 0b00000000000010000100100100000000#32 = .ok (.sll 9#5 8#5 4#5) ∧
  decodeWord 0b00000001000010010101100000100010#32 = .ok (.sub 11#5 8#5 9#5) ∧
  decodeWord 0b00110100000010010000000011111111#32 = .ok (.ori 9#5 0#5 0x00FF#16) ∧
  decodeWord 0b10001101001010000000000000000100#32 = .ok (.lw 8#5 4#16 9#5) ∧
  decodeWord 0b00001000000100000000000000000010#32 = .ok (.j 0x0100002#26)

/-- R130, R131: `mask` is idempotent, never changes a value, fails whenever `v >= 2^w` with the overflow condition, and
succeeds below. Widths other than 5, 6 and 28 are D28; widths above 32, which the spec does not give, are this model's
(log entry 14). -/
def Obligations.MaskIsStrictAndIdempotent : Prop :=
  ∀ (v : Word) (n : Nat),
    (∀ u, mask v n = .ok u → u = v ∧ mask u n = .ok v) ∧ (2 ^ n ≤ v.toNat → mask v n = .error (.overflow v.toNat n none)) ∧
    (v.toNat < 2 ^ n → mask v n = .ok v)

/-- R141: `unpack_r` undoes `pack_r` on fields in range, with opcode 0, and `pack_r` undoes `unpack_r` on words of
opcode 0. -/
def Obligations.PackRUnpackRRoundTrip : Prop :=
  (∀ rs rt rd sh fn : Word, rs.toNat < 32 → rt.toNat < 32 → rd.toNat < 32 → sh.toNat < 32 → fn.toNat < 64 →
    ∃ w, packR rs rt rd sh fn = .ok w ∧ opcodeOf w = 0#6 ∧
      unpackR w = ⟨rs.setWidth 5, rt.setWidth 5, rd.setWidth 5, sh.setWidth 5, fn.setWidth 6⟩) ∧
  (∀ w : Word, opcodeOf w = 0#6 →
    packR ((rsOf w).setWidth 32) ((rtOf w).setWidth 32) ((rdOf w).setWidth 32) ((shamtOf w).setWidth 32)
      ((functOf w).setWidth 32) = .ok w)

/-- R141: `unpack_i` undoes `pack_i` on fields in range, and `pack_i` undoes `unpack_i` on every word. -/
def Obligations.PackIUnpackIRoundTrip : Prop :=
  (∀ (op rs rt : Word) (imm : Half), op.toNat < 64 → rs.toNat < 32 → rt.toNat < 32 →
    ∃ w, packI op rs rt imm = .ok w ∧ unpackI w = ⟨op.setWidth 6, rs.setWidth 5, rt.setWidth 5, imm⟩) ∧
  (∀ w : Word, packI ((opcodeOf w).setWidth 32) ((rsOf w).setWidth 32) ((rtOf w).setWidth 32) (immOf w) = .ok w)

/-- R141, R136, R99: `unpack_j` recovers bits 27:2 of the address; the other bits are dropped silently (D10). A word is
its opcode and target put back together. -/
def Obligations.PackJRecoversAddressField : Prop :=
  (∀ op a : Word, op.toNat < 64 → ∃ w, packJ op a = .ok w ∧ (unpackJ w).opcode = op.setWidth 6 ∧
    (unpackJ w).target.toNat = a.toNat % 2 ^ 28 / 4) ∧
  ∀ w : Word, (opcodeOf w).setWidth 32 <<< 26 ||| (targetOf w).setWidth 32 = w

/-- R134, R135, R136, R137: `pack_r`, `pack_i` and `pack_j` name the first field that is out of range, most significant
first (the order is D22); no immediate and no address is ever out of range (the address is D10). -/
def Obligations.PackRReportsFirstOverflow : Prop :=
  (∀ rs rt rd sh fn : Word,
    (32 ≤ rs.toNat → packR rs rt rd sh fn = .error (.overflow rs.toNat 5 (some .rs))) ∧
    (rs.toNat < 32 → 32 ≤ rt.toNat → packR rs rt rd sh fn = .error (.overflow rt.toNat 5 (some .rt))) ∧
    (rs.toNat < 32 → rt.toNat < 32 → 32 ≤ rd.toNat →
      packR rs rt rd sh fn = .error (.overflow rd.toNat 5 (some .rd))) ∧
    (rs.toNat < 32 → rt.toNat < 32 → rd.toNat < 32 → 32 ≤ sh.toNat →
      packR rs rt rd sh fn = .error (.overflow sh.toNat 5 (some .shamt))) ∧
    (rs.toNat < 32 → rt.toNat < 32 → rd.toNat < 32 → sh.toNat < 32 → 64 ≤ fn.toNat →
      packR rs rt rd sh fn = .error (.overflow fn.toNat 6 (some .funct)))) ∧
  (∀ (op rs rt : Word) (imm : Half),
    (64 ≤ op.toNat → packI op rs rt imm = .error (.overflow op.toNat 6 (some .opcode))) ∧
    (op.toNat < 64 → 32 ≤ rs.toNat → packI op rs rt imm = .error (.overflow rs.toNat 5 (some .rs))) ∧
    (op.toNat < 64 → rs.toNat < 32 → 32 ≤ rt.toNat →
      packI op rs rt imm = .error (.overflow rt.toNat 5 (some .rt)))) ∧
  ∀ op a : Word, 64 ≤ op.toNat → packJ op a = .error (.overflow op.toNat 6 (some .opcode))

/-- R142, R140: `load_word` and `emit_word` undo each other (`OBJ_ORDER`, D6). -/
def Obligations.EmitWordLoadWordInverse : Prop :=
  (∀ w : Word, ∃ b0 b1 b2 b3, emitWord w = [b0, b1, b2, b3] ∧ loadWord b0 b1 b2 b3 = w ∧
    b0 = w.extractLsb' 0 8 ∧ b1 = w.extractLsb' 8 8 ∧ b2 = w.extractLsb' 16 8 ∧ b3 = w.extractLsb' 24 8) ∧
  (∀ b0 b1 b2 b3 : Byte, emitWord (loadWord b0 b1 b2 b3) = [b0, b1, b2, b3] ∧
    (loadWord b0 b1 b2 b3).toNat = b0.toNat + b1.toNat * 2 ^ 8 + b2.toNat * 2 ^ 16 + b3.toNat * 2 ^ 24)

/-- R143: the object stream is 4 bytes per word in program order, word `i` at offsets `4i .. 4i+3`. -/
def Obligations.ObjectStreamIsFourBytesPerWord : Prop :=
  ∀ ws : List Word, (objectStream ws).length = 4 * ws.length ∧
    ∀ i w, ws[i]? = some w → ((objectStream ws).drop (4 * i)).take 4 = emitWord w

/-! ### Register naming and the assembler -/

/-- R169: the image of Register Naming is all 32 indices, and no two `$` names share an index. -/
def Obligations.RegisterNamingImageAndInjectivity : Prop :=
  (∀ n : Idx5, ∃ t, regindex t = .ok n) ∧
  (∀ (x y : Token) (n : Idx5), regindex ('$' :: x) = .ok n → regindex ('$' :: y) = .ok n → x = y) ∧
  (∀ n : Idx5, (∃ x, regindex ('$' :: x) = .ok n) ↔ n ≠ 26#5 ∧ n ≠ 27#5)

/-- R164, R165: a token of digits alone resolves to its decimal value up to 31 and is `InvalidRegister` above; that
condition arises from no other token; every other failure is `MalformedMnemonic`, with the token. That this is the name
for digits outside a family's range is the spec's choice (R167, D21), as are leading zeros (R168). -/
def Obligations.RegisterTokenConditions : Prop :=
  (∀ t : Token, isBareDecimal t = true → decimalValue t ≤ 31 →
    ∃ n : Idx5, regindex t = .ok n ∧ n.toNat = decimalValue t) ∧
  (∀ t : Token, regindex t = .error (.invalidRegister t) ↔ isBareDecimal t = true ∧ 31 < decimalValue t) ∧
  (∀ (t : Token) (e : AsmCondition), regindex t = .error e → e = .invalidRegister t ∨ e = .malformedMnemonic t)

/-- R185: the expected counts of the forms; a count that is not expected is `ArityMismatch` whatever the operands are,
an expected one never is; a mnemonic that is in no table is refused before the count is looked at. -/
def Obligations.ArityCheckedExactly : Prop :=
  (∀ (funct opcode : Six) (shamt : Idx5) (n : Nat),
    (arityOk (.r funct shamt .rdRsRt) n = true ↔ n = 3) ∧ (arityOk (.r funct shamt .rdRtShamt) n = true ↔ n = 3) ∧
    (arityOk (.i opcode .rtImm) n = true ↔ n = 2) ∧ (arityOk (.i opcode .rtRsImm) n = true ↔ n = 3) ∧
    (arityOk (.i opcode .rtImmRs) n = true ↔ n = 3 ∨ n = 2) ∧ (arityOk (.i opcode .rsRtLabel) n = true ↔ n = 3) ∧
    (arityOk (.j opcode) n = true ↔ n = 1)) ∧
  ∀ (fe : FrontEnd) (c : Catalog) (labels : LabelTable) (cur : Word) (m : Token) (args : List Token),
    (∀ e, lookupMnemonic c m = .error e → encodeStatement fe c labels cur m args = .error e) ∧
    ∀ d, lookupMnemonic c m = .ok d →
      (arityOk d args.length = false →
        encodeStatement fe c labels cur m args = .error (.arityMismatch m args.length)) ∧
      (arityOk d args.length = true → ∀ x n, encodeStatement fe c labels cur m args ≠ .error (.arityMismatch x n))

/-- R193: a load/store statement with two operands is accepted and encoded exactly as the three-operand one with
immediate 0; one operand, or four or more, is `ArityMismatch`; only this form has the exception. -/
def Obligations.ZeroOffsetFormDefaultsImmediate : Prop :=
  ∀ (fe : FrontEnd) (labels : LabelTable) (cur : Word) (m : Token) (op : Six),
    (∀ (a0 a1 z : Token), fe.immediate z = 0#16 →
      encodeForm fe labels cur m (.i op .rtImmRs) [a0, a1] = encodeForm fe labels cur m (.i op .rtImmRs) [a0, z, a1]) ∧
    (∀ (a0 a1 : Token) (rt rs : Idx5), regindex a0 = .ok rt → regindex a1 = .ok rs →
      encodeForm fe labels cur m (.i op .rtImmRs) [a0, a1] = .ok (wordI op rs rt 0#16)) ∧
    (∀ args : List Token, args.length ≠ 2 → args.length ≠ 3 →
      encodeForm fe labels cur m (.i op .rtImmRs) args = .error (.arityMismatch m args.length)) ∧
    ∀ (d : Descriptor) (n k : Nat), (∀ o, d ≠ .i o .rtImmRs) → arityOk d n = true → arityOk d k = true → n = k

/-- R187 to R191: an assembled statement of the minimum catalog is the encoder's word of the instruction its operands
name (rs and rt of "source" and "operand" are G6; the catalog's rows are R104, D27); a shift amount of 32 or more is
`Overflow` of `shamt` (R188; from `2^32` on by log entry 13). -/
def Obligations.AssembledStatementIsEncodedInstruction : Prop :=
  ∀ (fe : FrontEnd) (labels : LabelTable) (cur : Word) (a0 a1 a2 : Token) (i0 i1 i2 : Idx5),
    regindex a0 = .ok i0 → regindex a1 = .ok i1 →
    (regindex a2 = .ok i2 →
      encodeStatement fe minimumCatalog labels cur ['a', 'd', 'd'] [a0, a1, a2] = .ok (encode (.add i0 i1 i2)) ∧
      encodeStatement fe minimumCatalog labels cur ['s', 'u', 'b'] [a0, a1, a2] = .ok (encode (.sub i0 i1 i2)) ∧
      encodeStatement fe minimumCatalog labels cur ['x', 'o', 'r'] [a0, a1, a2] = .ok (encode (.xor i0 i1 i2))) ∧
    (fe.number a2 < 32 →
      encodeStatement fe minimumCatalog labels cur ['s', 'l', 'l'] [a0, a1, a2] =
        .ok (encode (.sll i0 i1 (BitVec.ofNat 5 (fe.number a2)))) ∧
      encodeStatement fe minimumCatalog labels cur ['s', 'r', 'l'] [a0, a1, a2] =
        .ok (encode (.srl i0 i1 (BitVec.ofNat 5 (fe.number a2))))) ∧
    (32 ≤ fe.number a2 →
      encodeStatement fe minimumCatalog labels cur ['s', 'l', 'l'] [a0, a1, a2] =
        .error (.overflow (fe.number a2) 5 (some .shamt)) ∧
      encodeStatement fe minimumCatalog labels cur ['s', 'r', 'l'] [a0, a1, a2] =
        .error (.overflow (fe.number a2) 5 (some .shamt))) ∧
    encodeStatement fe minimumCatalog labels cur ['o', 'r', 'i'] [a0, a1, a2] =
      .ok (encode (.ori i0 i1 (fe.immediate a2))) ∧
    encodeStatement fe minimumCatalog labels cur ['l', 'u', 'i'] [a0, a2] = .ok (encode (.lui i0 (fe.immediate a2))) ∧
    encodeStatement fe minimumCatalog labels cur ['l', 'w'] [a0, a2, a1] =
      .ok (encode (.lw i0 (fe.immediate a2) i1))

/-- R194, R195, R196: a branch holds the byte distance from itself to its label, refused when it does not fit 16 signed
bits (D8, D9); a jump holds bits 27:2 of its label's address, at every address, the other bits dropped silently (R136,
R99, D10); a label that is not in the table is `UndeclaredLabel`. The rows `beq` and `j` of the minimum catalog are R104
and D27, their opcodes G8 (log entry 12). -/
def Obligations.BranchAndJumpTargets : Prop :=
  ∀ (fe : FrontEnd) (labels : LabelTable) (cur target : Word) (a0 a1 l : Token) (i0 i1 : Idx5),
    regindex a0 = .ok i0 → regindex a1 = .ok i1 →
    (labels.lookup l = some target → -32768 ≤ (target.toNat - cur.toNat : Int) →
      (target.toNat - cur.toNat : Int) ≤ 32767 →
      ∃ imm : Half, encodeStatement fe minimumCatalog labels cur ['b', 'e', 'q'] [a0, a1, l] =
        .ok (encode (.beq i0 i1 imm)) ∧ imm.toInt = (target.toNat - cur.toNat : Int)) ∧
    (labels.lookup l = some target →
      ((target.toNat - cur.toNat : Int) < -32768 ∨ 32767 < (target.toNat - cur.toNat : Int)) →
      encodeStatement fe minimumCatalog labels cur ['b', 'e', 'q'] [a0, a1, l] =
        .error (.overflow (target.toNat - cur.toNat : Int) 16 (some .imm))) ∧
    (labels.lookup l = some target →
      encodeStatement fe minimumCatalog labels cur ['j'] [l] =
        .ok (encode (.j (BitVec.ofNat 26 (target.toNat % 2 ^ 28 / 4))))) ∧
    (labels.lookup l = none →
      encodeStatement fe minimumCatalog labels cur ['b', 'e', 'q'] [a0, a1, l] = .error (.undeclaredLabel l) ∧
      encodeStatement fe minimumCatalog labels cur ['j'] [l] = .error (.undeclaredLabel l))

/-- R197: the Label Table of a program gives each label the address of the next instruction statement after it:
`TEXT_BASE + 4 i`, `i` the number of instruction statements before the label. -/
def Obligations.LabelAddressCountsInstructions : Prop :=
  ∀ (base : Word) (before after : List Node) (l : Token) (labels : LabelTable),
    pass1 [] 0 base (before ++ .label l :: after) = .ok labels →
    labels.lookup l = some (base + BitVec.ofNat 32 (4 * instrCount before))

/-- R143, R198, R200, N23: an assembled program has 4 bytes per instruction statement, every directive in it is a
supported one, and no label is declared twice (that refusal is log entry 9's). -/
def Obligations.AssembledProgramIsComplete : Prop :=
  ∀ (fe : FrontEnd) (c : Catalog) (base : Word) (t : Tree) (bs : List Byte), assemble fe c base t = .ok bs →
    bs.length = 4 * instrCount (flattenTree t) ∧ labelsUnique (flattenTree t) = true ∧
    ∀ n args, .directive n args ∈ flattenTree t → directiveSupported n = true

/-! ### The entry point -/

/-- R301, R303: the assembler's address counter, the loader and `pc` start from one parameter, the text base. A program
boots exactly when its catalog is admitted, the machine launches, the program assembles at the text base and the host's
duty is met: one region holds the text base and has room for the whole program. Then its words stand initialized in that
one region from the text base up, `pc` is the text base with `halt` and the mark clear, the first step executes the first
word, and a label before the first instruction statement has the address `pc` starts at. How a program is loaded is D30,
what a boot refuses is log entries 4, 13 and 17, and that the decoder reads `lw`, `beq` and `j` is log entry 7. -/
def Obligations.ProgramStartsAtTextBase : Prop :=
  (∀ (p : Params) (fe : FrontEnd) (c : Catalog) (t : Tree), (∃ s, bootWith p fe c t = some s) ↔
    admitCatalog c = some c ∧ ∃ s bs, launch p = some s ∧ assembleFor p fe c t = .ok bs ∧
      loadRoomOk p.textBase bs.length s = true) ∧
  ∀ (p : Params) (fe : FrontEnd) (c : Catalog) (t : Tree) (s : State), bootWith p fe c t = some s →
    s.pc = p.textBase ∧ s.halt = none ∧ s.uninitSeen = false ∧
    (∃ ws, assembleNodes fe c p.textBase (flattenTree t) = .ok ws ∧
      (∃ i k r, s.regions[i]? = some r ∧ mapAddr s.regions s.pc.toNat = some (i, k) ∧
        k + 4 * ws.length ≤ r.maxLen ∧
        ∀ j, j < 4 * ws.length → mapAddr s.regions (s.pc.toNat + j) = some (i, k + j)) ∧
      (∀ i w, ws[i]? = some w → peekWord s.regions (s.pc.toNat + 4 * i) = some w ∧
        anyUninit s.regions (s.pc.toNat + 4 * i) 4 = false) ∧
      ∀ w i, ws[0]? = some w → decodeWord w = .ok i → step s = exec i { s with pc := p.textBase + 4#32 }) ∧
    ∀ (before after : List Node) (l : Token) (labels : LabelTable), flattenTree t = before ++ .label l :: after →
      instrCount before = 0 → pass1 [] 0 p.textBase (flattenTree t) = .ok labels → labels.lookup l = some s.pc
end

