-- ==== Sys2Proof/Laws/Memory.lean ====
section
/-! SUPPORT. The laws of the segmented memory: cells keep their canonical form, a cell reads as last written, `map`
answers a region that contains the address, and every memory operation keeps `Memory.wf`. -/

namespace Sys2Proof.Machine

/-! ### Cells -/

theorem cellsWf_cons {c : Host.Cell} {cs : List Host.Cell} :
    cellsWf (c :: cs) = true ↔ c.2 ≠ Config.unlistedByte ∧ (∀ d ∈ cs, c.1 < d.1) ∧ cellsWf cs = true := by
  simp [cellsWf, and_assoc]

/-- An address below every listed one is unlisted. -/
theorem cellsGet_below {a : Nat} {cs : List Host.Cell} (h : ∀ d ∈ cs, a < d.1) :
    cellsGet a cs = Config.unlistedByte := by
  induction cs with
  | nil => rfl
  | cons c cs ih =>
    have hc : c.1 ≠ a := by have := h c (by simp); omega
    simp only [cellsGet, hc, if_false]
    exact ih fun d hd => h d (by simp [hd])

/-- An address above every listed one is unlisted. -/
theorem cellsGet_above {a : Nat} {cs : List Host.Cell} (h : ∀ d ∈ cs, d.1 < a) :
    cellsGet a cs = Config.unlistedByte := by
  induction cs with
  | nil => rfl
  | cons c cs ih =>
    have hc : c.1 ≠ a := by have := h c (by simp); omega
    simp only [cellsGet, hc, if_false]
    exact ih fun d hd => h d (by simp [hd])

/-- A put lists nothing but its own cell and what was listed. -/
theorem mem_cellsPut {a : Nat} {v : Byte} {cs : List Host.Cell} {d : Host.Cell} (h : d ∈ cellsPut a v cs) :
    d = (a, v) ∨ d ∈ cs := by
  induction cs with
  | nil => unfold cellsPut at h; split at h <;> simp_all
  | cons c cs ih =>
    unfold cellsPut at h
    split at h
    · split at h
      · exact .inr h
      · exact List.mem_cons.1 h
    · split at h
      · split at h
        · exact .inr (List.mem_cons_of_mem _ h)
        · exact (List.mem_cons.1 h).imp_right (List.mem_cons_of_mem _)
      · rcases List.mem_cons.1 h with rfl | h
        · exact .inr (by simp)
        · exact (ih h).imp_right (List.mem_cons_of_mem _)

/-- A put keeps the canonical form. -/
theorem cellsPut_wf {a : Nat} {v : Byte} {cs : List Host.Cell} (h : cellsWf cs = true) :
    cellsWf (cellsPut a v cs) = true := by
  induction cs with
  | nil => unfold cellsPut; split <;> simp_all [cellsWf]
  | cons c cs ih =>
    obtain ⟨hc, hlt, hcs⟩ := cellsWf_cons.1 h
    unfold cellsPut
    split <;> rename_i ha
    · split <;> rename_i hv
      · exact h
      · refine cellsWf_cons.2 ⟨hv, fun d hd => ?_, h⟩
        rcases List.mem_cons.1 hd with rfl | hd
        · exact ha
        · exact ha.trans (hlt d hd)
    · split <;> rename_i he
      · split <;> rename_i hv
        · exact hcs
        · exact cellsWf_cons.2 ⟨hv, fun d hd => by simpa [he] using hlt d hd, hcs⟩
      · refine cellsWf_cons.2 ⟨hc, fun d hd => ?_, ih hcs⟩
        rcases mem_cellsPut hd with rfl | hd
        · show c.1 < a; omega
        · exact hlt d hd

/-- A cell reads as last written. -/
theorem cellsGet_cellsPut_same {a : Nat} {v : Byte} {cs : List Host.Cell} (h : cellsWf cs = true) :
    cellsGet a (cellsPut a v cs) = v := by
  induction cs with
  | nil => unfold cellsPut; split <;> simp_all [cellsGet]
  | cons c cs ih =>
    obtain ⟨-, hlt, hcs⟩ := cellsWf_cons.1 h
    unfold cellsPut
    split <;> rename_i ha
    · split <;> rename_i hv
      · rw [hv]
        refine cellsGet_below fun d hd => ?_
        rcases List.mem_cons.1 hd with rfl | hd
        · exact ha
        · exact ha.trans (hlt d hd)
      · simp [cellsGet]
    · split <;> rename_i he
      · split <;> rename_i hv
        · rw [hv]; exact cellsGet_below fun d hd => by simpa [he] using hlt d hd
        · simp [cellsGet]
      · have hne : c.1 ≠ a := fun e => he e.symm
        simpa [cellsGet, hne] using ih hcs

/-- A put leaves every other address alone. -/
theorem cellsGet_cellsPut_other {a b : Nat} {v : Byte} {cs : List Host.Cell} (hb : b ≠ a) :
    cellsGet b (cellsPut a v cs) = cellsGet b cs := by
  have hab : a ≠ b := fun e => hb e.symm
  induction cs with
  | nil => unfold cellsPut; split <;> simp [cellsGet, hab]
  | cons c cs ih =>
    unfold cellsPut
    split
    · split <;> simp [cellsGet, hab]
    · split <;> rename_i he
      · have hne : c.1 ≠ b := he ▸ hab
        split <;> simp [cellsGet, hab, hne]
      · simp [cellsGet, ih]

/-- The cells of listed bytes lie from the first address up, inside their number. -/
theorem mem_cellsOfBytes {a : Nat} {bs : List Byte} {d : Host.Cell} (h : d ∈ cellsOfBytes a bs) :
    a ≤ d.1 ∧ d.1 < a + bs.length := by
  induction bs generalizing a with
  | nil => simp [cellsOfBytes] at h
  | cons b bs ih =>
    unfold cellsOfBytes at h
    split at h
    · have := ih h; simp; omega
    · rcases List.mem_cons.1 h with rfl | h
      · simp
      · have := ih h; simp; omega

theorem cellsOfBytes_wf (a : Nat) (bs : List Byte) : cellsWf (cellsOfBytes a bs) = true := by
  induction bs generalizing a with
  | nil => rfl
  | cons b bs ih =>
    unfold cellsOfBytes
    split <;> rename_i hb
    · exact ih _
    · exact cellsWf_cons.2 ⟨hb, fun d hd => by have := mem_cellsOfBytes hd; show a < d.1; omega, ih _⟩

/-! ### Regions -/

theorem Region.wf_iff {r : Region} : r.wf = true ↔
    cellsWf r.cells = true ∧ (∀ c ∈ r.cells, r.base.toNat ≤ c.1 ∧ c.1 < r.base.toNat + r.len) ∧ r.len ≤ r.maxLen := by
  simp [Region.wf, and_assoc]

/-- A growing or overwriting byte write keeps a region well formed (R62: the new length `k + 1` is at most `max`). -/
theorem Region.write_wf {r : Region} {k : Nat} {v : Byte} (h : r.wf = true) (hk : k < r.maxLen) :
    (r.write k v).wf = true := by
  obtain ⟨hc, hin, hl⟩ := Region.wf_iff.1 h
  refine Region.wf_iff.2 ⟨cellsPut_wf hc, fun c hm => ?_, ?_⟩
  · show r.base.toNat ≤ c.1 ∧ c.1 < r.base.toNat + max r.len (k + 1)
    rcases mem_cellsPut hm with rfl | hm
    · show r.base.toNat ≤ r.base.toNat + k ∧ r.base.toNat + k < _; omega
    · have := hin c hm; omega
  · show max r.len (k + 1) ≤ r.maxLen; omega

theorem Region.ofBytes_wf {base : Word} {maxLen : Nat} {bs : List Byte} (h : bs.length ≤ maxLen) :
    (Region.ofBytes base maxLen bs).wf = true :=
  Region.wf_iff.2 ⟨cellsOfBytes_wf _ _, fun _ hc => mem_cellsOfBytes hc, h⟩

@[simp] theorem Region.write_base (r : Region) (k : Nat) (v : Byte) : (r.write k v).base = r.base := rfl
@[simp] theorem Region.write_maxLen (r : Region) (k : Nat) (v : Byte) : (r.write k v).maxLen = r.maxLen := rfl
@[simp] theorem Region.write_len (r : Region) (k : Nat) (v : Byte) : (r.write k v).len = max r.len (k + 1) := rfl

@[simp] theorem Region.backing_length (r : Region) : r.backing.length = r.len := by simp [Region.backing]

/-- Past the end of a well-formed region's backing no cell is listed. -/
theorem Region.cells_past_end {r : Region} {k : Nat} (h : r.wf = true) (hk : r.len ≤ k) :
    cellsGet (r.base.toNat + k) r.cells = Config.unlistedByte :=
  cellsGet_above fun c hc => by have := ((Region.wf_iff.1 h).2.1 c hc).2; omega

/-! ### `map` (R53) -/

/-- The scan answers an index of the list, whose region contains the address at that offset, and no earlier region
does. -/
theorem scanRegions_spec {m : Memory} {a i k : Nat} (h : scanRegions m a = some (i, k)) :
    ∃ r, m[i]? = some r ∧ r.contains a = true ∧ r.base.toNat + k = a ∧ k < r.maxLen := by
  induction m generalizing i k with
  | nil => simp [scanRegions] at h
  | cons q m ih =>
    unfold scanRegions at h
    split at h
    · rename_i hq
      obtain ⟨rfl, rfl⟩ : 0 = i ∧ a - q.base.toNat = k := by simpa using h
      have := hq
      simp only [Region.contains, decide_eq_true_eq] at this
      exact ⟨q, rfl, hq, by omega, this.2⟩
    · split at h
      · rename_i j l hj
        obtain ⟨rfl, rfl⟩ : j + 1 = i ∧ l = k := by simpa using h
        simpa using ih hj
      · simp at h

/-- `map` looks at bases and maximum lengths only, so rewriting one region's backing moves no address. -/
theorem scanRegions_modify (m : Memory) (i a : Nat) (f : Region → Region)
    (hf : ∀ r, (f r).base = r.base ∧ (f r).maxLen = r.maxLen) : scanRegions (m.modify i f) a = scanRegions m a := by
  induction m generalizing i with
  | nil => simp
  | cons q m ih =>
    cases i with
    | zero => simp [List.modify_cons, scanRegions, Region.contains, (hf q).1, (hf q).2]
    | succ i => simp [scanRegions, ih]

theorem mapAddr_spec {m : Memory} {a i k : Nat} (h : mapAddr m a = some (i, k)) :
    ∃ r, m[i]? = some r ∧ r.base.toNat + k = a ∧ k < r.maxLen ∧ a < 2 ^ 32 := by
  unfold mapAddr at h
  split at h
  · obtain ⟨r, hr, -, hk, hm⟩ := scanRegions_spec h
    exact ⟨r, hr, hk, hm, ‹_›⟩
  · simp at h

theorem mapAddr_modify (m : Memory) (i a : Nat) (f : Region → Region)
    (hf : ∀ r, (f r).base = r.base ∧ (f r).maxLen = r.maxLen) : mapAddr (m.modify i f) a = mapAddr m a := by
  simp only [mapAddr, scanRegions_modify m i a f hf]

theorem regionAt_eq {m : Memory} {i : Nat} {r : Region} (h : m[i]? = some r) : regionAt m i = r := by
  simp [regionAt, h]

theorem regionAt_modify {m : Memory} {i : Nat} {f : Region → Region} {r : Region} (h : m[i]? = some r) (j : Nat) :
    regionAt (m.modify i f) j = if j = i then f r else regionAt m j := by
  simp only [regionAt, List.getD_eq_getElem?_getD, List.getElem?_modify]
  split <;> rename_i hj
  · subst hj; simp [h]
  · simp [Ne.symm hj]

/-! ### Every memory operation keeps the canonical form -/

theorem Memory.wf_iff {m : Memory} : Memory.wf m = true ↔ ∀ r ∈ m, r.wf = true := by simp [Memory.wf]

theorem Memory.wf_modify {m : Memory} {i : Nat} {f : Region → Region} (h : Memory.wf m = true)
    (hf : ∀ r, m[i]? = some r → (f r).wf = true) : Memory.wf (m.modify i f) = true := by
  refine Memory.wf_iff.2 fun r hr => ?_
  obtain ⟨j, hj⟩ := List.mem_iff_getElem?.1 hr
  rw [List.getElem?_modify] at hj
  cases hq : m[j]? with
  | none => simp [hq] at hj
  | some q =>
    rw [hq] at hj
    by_cases he : i = j
    · subst he
      obtain rfl : f q = r := by simpa using hj
      exact hf q hq
    · obtain rfl : q = r := by simpa [he] using hj
      exact Memory.wf_iff.1 h _ (List.mem_of_getElem? hq)

/-- What one byte write can do (R62). -/
theorem writeByte_cases (a : Nat) (v : Byte) (s : State) :
    (mapAddr s.regions a = none ∧ writeByte a v s = .unknown a s) ∨
    ∃ i k, mapAddr s.regions a = some (i, k) ∧
      writeByte a v s = .done () { s with regions := s.regions.modify i (fun r => r.write k v) } := by
  unfold writeByte
  cases h : mapAddr s.regions a with
  | none => exact .inl ⟨rfl, rfl⟩
  | some p => exact .inr ⟨p.1, p.2, rfl, rfl⟩

theorem writeByte_wf {a : Nat} {v : Byte} {s t : State} (hs : Memory.wf s.regions = true)
    (h : writeByte a v s = .done () t) : Memory.wf t.regions = true := by
  obtain ⟨-, hw⟩ | ⟨i, k, hm, hw⟩ := writeByte_cases a v s
  · rw [hw] at h; cases h
  · rw [hw] at h
    cases h
    obtain ⟨r, hr, -, hk, -⟩ := mapAddr_spec hm
    refine Memory.wf_modify hs fun q hq => ?_
    obtain rfl : r = q := by rw [hr] at hq; exact Option.some.inj hq
    exact Region.write_wf (Memory.wf_iff.1 hs _ (List.mem_of_getElem? hr)) hk

theorem writeBytes_wf {a : Nat} {bs : List Byte} {s t : State} (hs : Memory.wf s.regions = true)
    (h : writeBytes a bs s = .done () t) : Memory.wf t.regions = true := by
  induction bs generalizing a s with
  | nil => cases h; exact hs
  | cons b bs ih =>
    unfold writeBytes at h
    cases hw : writeByte a b s with
    | unknown c u => simp [hw] at h
    | done x u => simp only [hw] at h; exact ih (writeByte_wf hs hw) h

theorem registerRegion_wf {r : Region} {s : State} (hs : Memory.wf s.regions = true) (hr : r.wf = true) :
    Memory.wf (registerRegion r s).regions = true := by
  refine Memory.wf_iff.2 fun q hq => ?_
  rcases List.mem_append.1 hq with hq | hq
  · exact Memory.wf_iff.1 hs q hq
  · obtain rfl : q = r := by simpa using hq
    exact hr

theorem placeByte_wf {a : Nat} {v : Byte} {s : State} (hs : Memory.wf s.regions = true) :
    Memory.wf (placeByte a v s).regions = true := by
  unfold placeByte
  cases hw : writeByte a v s with
  | done x u => exact writeByte_wf hs hw
  | unknown c u =>
    show Memory.wf (if a < 2 ^ 32 then _ else s).regions = true
    split
    · exact registerRegion_wf hs (Region.ofBytes_wf (by simp))
    · exact hs

theorem placeBytes_wf {a : Nat} {bs : List Byte} {s : State} (hs : Memory.wf s.regions = true) :
    Memory.wf (placeBytes a bs s).regions = true := by
  induction bs generalizing a s with
  | nil => exact hs
  | cons b bs ih => exact ih (placeByte_wf hs)

/-- A byte that is written reads back, and every other initialized byte still does (R62). -/
theorem byteAt_writeByte {a : Nat} {v : Byte} {s t : State} (hs : Memory.wf s.regions = true)
    (h : writeByte a v s = .done () t) : byteAt t.regions a = .initialized v ∧
      ∀ b c, b ≠ a → byteAt s.regions b = .initialized c → byteAt t.regions b = .initialized c := by
  obtain ⟨-, e⟩ | ⟨i, k, hm, e⟩ := writeByte_cases a v s <;> rw [e] at h <;> cases h
  obtain ⟨r, hr, hk, -, -⟩ := mapAddr_spec hm
  have hw := (Region.wf_iff.1 (Memory.wf_iff.1 hs _ (List.mem_of_getElem? hr))).1
  have hmap : ∀ b, mapAddr (s.regions.modify i fun q => q.write k v) b = mapAddr s.regions b := fun b =>
    mapAddr_modify _ _ _ (fun q => q.write k v) fun _ => ⟨rfl, rfl⟩
  constructor
  · have hl : k < (r.write k v).len := by simp
    simp only [byteAt, hmap, hm, regionAt_modify hr, if_true, Region.byteAt, Region.write_base]
    rw [if_pos hl]
    exact congrArg _ (cellsGet_cellsPut_same hw)
  · intro b c hb hc
    unfold byteAt at hc ⊢
    rw [hmap]
    cases hq : mapAddr s.regions b with
    | none => simp [hq] at hc
    | some p =>
      obtain ⟨j, l⟩ := p
      simp only [hq] at hc
      simp only [regionAt_modify hr]
      split
      · rename_i hj
        subst hj
        obtain ⟨r', hr', hk', -, -⟩ := mapAddr_spec hq
        obtain rfl : r = r' := Option.some.inj (hr.symm.trans hr')
        rw [regionAt_eq hr] at hc
        unfold Region.byteAt at hc ⊢
        split at hc
        · have hl : l < (r.write k v).len := by simp; omega
          rw [if_pos hl]
          refine Eq.trans (congrArg _ (cellsGet_cellsPut_other ?_)) hc
          simp only [Region.write_base]
          omega
        · cases hc
      · exact hc

/-- Bytes written from an address up read back in place, bytes below them stay, and nothing but memory changes
(R63, R303). -/
theorem byteAt_writeBytes {bs : List Byte} {a : Nat} {s t : State} (hs : Memory.wf s.regions = true)
    (h : writeBytes a bs s = .done () t) :
    (∀ j v, bs[j]? = some v → byteAt t.regions (a + j) = .initialized v) ∧
    (∀ b c, b < a → byteAt s.regions b = .initialized c → byteAt t.regions b = .initialized c) ∧
    t = { s with regions := t.regions } := by
  induction bs generalizing a s with
  | nil => cases h; simp
  | cons b bs ih =>
    unfold writeBytes at h
    obtain ⟨-, hw⟩ | ⟨i, k, -, hw⟩ := writeByte_cases a b s
    · simp [hw] at h
    · obtain ⟨hb, hr⟩ := byteAt_writeByte hs hw
      have hu := writeByte_wf hs hw
      simp only [hw] at h
      obtain ⟨h1, h2, h3⟩ := ih hu h
      refine ⟨fun j v hj => ?_, fun c d hc hd => h2 c d (by omega) (hr c d (by omega) hd), h3⟩
      cases j with
      | zero =>
        obtain rfl : b = v := by simpa using hj
        exact h2 a b (by omega) hb
      | succ j =>
        have := h1 j v (by simpa using hj)
        rwa [Nat.add_assoc, Nat.add_comm 1 j] at this

/-- Writes move no address: `map` answers after them what it answered before. -/
theorem mapAddr_writeBytes {bs : List Byte} {a : Nat} {s t : State} (h : writeBytes a bs s = .done () t) (b : Nat) :
    mapAddr t.regions b = mapAddr s.regions b := by
  induction bs generalizing a s with
  | nil => cases h; rfl
  | cons v bs ih =>
    unfold writeBytes at h
    obtain ⟨-, hw⟩ | ⟨i, k, -, hw⟩ := writeByte_cases a v s <;> simp only [hw] at h
    · cases h
    · exact (ih h).trans (mapAddr_modify _ _ _ (fun r => r.write k v) fun _ => ⟨rfl, rfl⟩)

/-- Writes change no region's length. -/
theorem maxLen_writeBytes {bs : List Byte} {a : Nat} {s t : State} (h : writeBytes a bs s = .done () t) (i : Nat) :
    (t.regions[i]?).map (·.maxLen) = (s.regions[i]?).map (·.maxLen) := by
  induction bs generalizing a s with
  | nil => cases h; rfl
  | cons v bs ih =>
    unfold writeBytes at h
    obtain ⟨-, hw⟩ | ⟨n, k, -, hw⟩ := writeByte_cases a v s <;> simp only [hw] at h
    · cases h
    · rw [ih h, List.getElem?_modify]
      by_cases e : n = i <;> cases s.regions[i]? <;> simp [e, Region.write]

/-- Writes to mapped addresses succeed. -/
theorem writeBytes_of_mapped {bs : List Byte} {a : Nat} {s : State}
    (h : ∀ j, j < bs.length → mapAddr s.regions (a + j) ≠ none) : ∃ t, writeBytes a bs s = .done () t := by
  induction bs generalizing a s with
  | nil => exact ⟨s, rfl⟩
  | cons v bs ih =>
    unfold writeBytes
    obtain ⟨hn, -⟩ | ⟨i, k, -, hw⟩ := writeByte_cases a v s
    · exact absurd hn (h 0 (by simp))
    · simp only [hw]
      refine ih fun j hj => ?_
      rw [mapAddr_modify _ _ _ (fun r => r.write k v) fun _ => ⟨rfl, rfl⟩]
      have := h (j + 1) (by simpa using hj)
      rwa [Nat.add_comm j 1, ← Nat.add_assoc] at this

/-- What the host's duty before a load says (R303). -/
theorem loadRoomOk_iff {base : Word} {n : Nat} {s : State} : loadRoomOk base n s = true ↔
    ∃ i k r, s.regions[i]? = some r ∧ mapAddr s.regions base.toNat = some (i, k) ∧ k + n ≤ r.maxLen ∧
      ∀ j, j < n → mapAddr s.regions (base.toNat + j) = some (i, k + j) := by
  unfold loadRoomOk
  cases hm : mapAddr s.regions base.toNat with
  | none => simp
  | some p =>
    obtain ⟨i, k⟩ := p
    obtain ⟨r, hr, -⟩ := mapAddr_spec hm
    simp only [regionAt_eq hr, Bool.and_eq_true, decide_eq_true_eq, List.all_eq_true, List.mem_range]
    refine ⟨fun ⟨h1, h2⟩ => ⟨i, k, r, hr, rfl, h1, h2⟩, ?_⟩
    rintro ⟨i', k', r', hr', e, h1, h2⟩
    cases e
    obtain rfl := Option.some.inj (hr.symm.trans hr')
    exact ⟨h1, h2⟩

/-- A load answers a state exactly when the host's duty is met and the writes succeed (R303, log entry 17). -/
theorem loadFor_iff {p : Params} {bs : List Byte} {s t : State} : loadFor p bs s = some t ↔
    loadRoomOk p.textBase bs.length s = true ∧ loadObject p.textBase bs s = .done () t := by
  unfold loadFor
  split
  · cases loadObject p.textBase bs s <;> simp_all
  · simp_all

/-! ### Registration (R304) -/

theorem scanRegions_append {m q : Memory} {a : Nat} {p : Nat × Nat} (h : scanRegions m a = some p) :
    scanRegions (m ++ q) a = some p := by
  induction m generalizing p with
  | nil => simp [scanRegions] at h
  | cons r m ih =>
    simp only [scanRegions, List.cons_append] at h ⊢
    split at h
    · rw [if_pos ‹_›]; exact h
    · rw [if_neg ‹_›]
      split at h <;> rename_i hm
      · simpa [ih hm] using h
      · simp at h

/-- A region appended moves no address that is mapped already. -/
theorem mapAddr_append {m q : Memory} {a : Nat} {p : Nat × Nat} (h : mapAddr m a = some p) :
    mapAddr (m ++ q) a = some p := by
  unfold mapAddr at h ⊢
  split at h
  · rw [if_pos ‹_›]; exact scanRegions_append h
  · simp at h

/-- Disjoint regions hold no common address. -/
theorem Region.not_contains_of_disjoint {r q : Region} (h : r.disjoint q = true) {a : Nat}
    (hq : q.contains a = true) : r.contains a = false := by
  simp only [Region.disjoint, Region.contains, decide_eq_true_eq, decide_eq_false_iff_not] at *
  omega

/-- An address of a region registered under its premise maps to that region. -/
theorem mapAddr_registered {m : Memory} {r : Region} {a : Nat} (hm : m.all (fun q => q.disjoint r) = true)
    (hr : r.contains a = true) (ha : a < 2 ^ 32) : mapAddr (m ++ [r]) a = some (m.length, a - r.base.toNat) := by
  simp only [mapAddr, ha, if_true]
  induction m with
  | nil => simp [scanRegions, hr]
  | cons q m ih =>
    obtain ⟨hq, hm⟩ : q.disjoint r = true ∧ m.all (fun q => q.disjoint r) = true := by simpa using hm
    simp [scanRegions, Region.not_contains_of_disjoint hq hr, ih hm]

theorem Memory.disjoint_append {m : Memory} {r : Region} (h : Memory.disjoint m = true)
    (hr : m.all (fun q => q.disjoint r) = true) : Memory.disjoint (m ++ [r]) = true := by
  induction m with
  | nil => rfl
  | cons q m ih => simp_all [Memory.disjoint]

/-- Rewriting one region's backing keeps regions disjoint: bases and maximum lengths alone count. -/
theorem Memory.disjoint_modify {m : Memory} {i : Nat} {f : Region → Region}
    (hf : ∀ r, (f r).base = r.base ∧ (f r).maxLen = r.maxLen) (h : Memory.disjoint m = true) :
    Memory.disjoint (m.modify i f) = true := by
  have hl : ∀ r q : Region, (f r).disjoint q = r.disjoint q := fun r q => by simp [Region.disjoint, hf r]
  have hr : ∀ r q : Region, q.disjoint (f r) = q.disjoint r := fun r q => by simp [Region.disjoint, hf r]
  have hall : ∀ (m : Memory) (q : Region) (i : Nat), m.all q.disjoint = true → (m.modify i f).all q.disjoint = true := by
    intro m q
    induction m with
    | nil => simp
    | cons r m ih =>
      intro i h
      obtain ⟨h0, hm⟩ : q.disjoint r = true ∧ m.all q.disjoint = true := by simpa using h
      cases i with
      | zero => simp only [List.modify_cons, if_true, List.all_cons, hr, h0, hm, Bool.and_self]
      | succ i => simp only [List.modify_succ_cons, List.all_cons, h0, ih i hm, Bool.and_self]
  induction m generalizing i with
  | nil => simpa using h
  | cons q m ih =>
    obtain ⟨hq, hm⟩ : m.all q.disjoint = true ∧ Memory.disjoint m = true := by
      simpa only [Memory.disjoint, Bool.and_eq_true] using h
    cases i with
    | zero =>
      have : (fun r => (f q).disjoint r) = q.disjoint := funext fun r => hl q r
      simp only [List.modify_cons, Memory.disjoint, Bool.and_eq_true, if_true]
      exact ⟨by rw [← hq]; congr 1, hm⟩
    | succ i =>
      simp only [List.modify_succ_cons, Memory.disjoint, Bool.and_eq_true]
      exact ⟨hall m q i hq, ih hm⟩

/-- The memory at reset is canonical. -/
theorem reset_wf : Memory.wf State.reset.regions = true := by decide

/-- The named parameters meet the premises on a launch (D15, D32, U9). -/
theorem named_ok : Params.named.ok = true := by decide

end Sys2Proof.Machine
end

