-- ==== Sys2Proof/Laws/State.lean ====
section
/-! SUPPORT. One lemma per field per update of the state, so that no later proof unfolds a record update, and the
read-after-write laws of the register file. -/

namespace Sys2Proof.Machine

variable (s : State) (i : Idx5) (v : Word) (r : HaltReason)

@[simp] theorem markUninit_gpr : (markUninit s).gpr = s.gpr := rfl
@[simp] theorem markUninit_fpr : (markUninit s).fpr = s.fpr := rfl
@[simp] theorem markUninit_hi : (markUninit s).hi = s.hi := rfl
@[simp] theorem markUninit_lo : (markUninit s).lo = s.lo := rfl
@[simp] theorem markUninit_pc : (markUninit s).pc = s.pc := rfl
@[simp] theorem markUninit_regions : (markUninit s).regions = s.regions := rfl
@[simp] theorem markUninit_halt : (markUninit s).halt = s.halt := rfl
@[simp] theorem markUninit_uninitSeen : (markUninit s).uninitSeen = true := rfl

@[simp] theorem markHalt_gpr : (markHalt r s).gpr = s.gpr := rfl
@[simp] theorem markHalt_fpr : (markHalt r s).fpr = s.fpr := rfl
@[simp] theorem markHalt_hi : (markHalt r s).hi = s.hi := rfl
@[simp] theorem markHalt_lo : (markHalt r s).lo = s.lo := rfl
@[simp] theorem markHalt_pc : (markHalt r s).pc = s.pc := rfl
@[simp] theorem markHalt_regions : (markHalt r s).regions = s.regions := rfl
@[simp] theorem markHalt_halt : (markHalt r s).halt = some r := rfl
@[simp] theorem markHalt_uninitSeen : (markHalt r s).uninitSeen = s.uninitSeen := rfl

@[simp] theorem writeReg_gpr : (writeReg i v s).gpr = s.gpr.set i.toNat v i.isLt := rfl
@[simp] theorem writeReg_fpr : (writeReg i v s).fpr = s.fpr := rfl
@[simp] theorem writeReg_hi : (writeReg i v s).hi = s.hi := rfl
@[simp] theorem writeReg_lo : (writeReg i v s).lo = s.lo := rfl
@[simp] theorem writeReg_pc : (writeReg i v s).pc = s.pc := rfl
@[simp] theorem writeReg_regions : (writeReg i v s).regions = s.regions := rfl
@[simp] theorem writeReg_halt : (writeReg i v s).halt = s.halt := rfl
@[simp] theorem writeReg_uninitSeen : (writeReg i v s).uninitSeen = s.uninitSeen := rfl

/-- The file holds what was last written (R22), register 0 like any other. -/
@[simp] theorem readReg_writeReg_same : readReg i (writeReg i v s) = v := by
  simp [readReg, writeReg]

/-- A write leaves every other register alone. -/
theorem readReg_writeReg_other {i k : Idx5} (h : k ≠ i) : readReg k (writeReg i v s) = readReg k s := by
  have hn : i.toNat ≠ k.toNat := fun e => h (BitVec.eq_of_toNat_eq e.symm)
  simp [readReg, writeReg, hn]

@[simp] theorem readReg_markUninit : readReg i (markUninit s) = readReg i s := rfl
@[simp] theorem readReg_markHalt : readReg i (markHalt r s) = readReg i s := rfl

/-- Register files that answer alike at every index are equal. -/
theorem gpr_ext {s t : State} (h : ∀ i : Idx5, readReg i s = readReg i t) : s.gpr = t.gpr := by
  refine Vector.ext fun n hn => ?_
  have := h (BitVec.ofNat 5 n)
  have e : n % 32 = n := Nat.mod_eq_of_lt hn
  simpa [readReg, e] using this

@[simp] theorem resetWith_gpr (p : Params) : (State.resetWith p).gpr = p.gprReset := rfl
@[simp] theorem resetWith_fpr (p : Params) : (State.resetWith p).fpr = p.fprReset := rfl
@[simp] theorem resetWith_hi (p : Params) : (State.resetWith p).hi = p.hiReset := rfl
@[simp] theorem resetWith_lo (p : Params) : (State.resetWith p).lo = p.loReset := rfl
@[simp] theorem resetWith_pc (p : Params) : (State.resetWith p).pc = p.textBase := rfl
@[simp] theorem resetWith_regions (p : Params) : (State.resetWith p).regions = p.regionsInit := rfl
@[simp] theorem resetWith_halt (p : Params) : (State.resetWith p).halt = none := rfl
@[simp] theorem resetWith_uninitSeen (p : Params) : (State.resetWith p).uninitSeen = false := rfl

end Sys2Proof.Machine
end

