-- ==== Sys2Proof/Laws/Access.lean ====
section
/-! SUPPORT. Everything a memory read and the fetch can do: they answer what is mapped or stop at the first byte that
is not, and change the `uninit_seen` mark (the fetch also `pc`) and nothing else. -/

namespace Sys2Proof.Machine

/-- Everything one byte read can do (R55, R56). -/
theorem readByte_cases (a : Nat) (s : State) :
    (byteAt s.regions a = .unmapped ∧ readByte a s = .unknown a s) ∨
    (∃ b, byteAt s.regions a = .initialized b ∧ readByte a s = .done b s) ∨
    (byteAt s.regions a = .uninitialized ∧ readByte a s = .done 0#8 (markUninit s)) := by
  unfold readByte
  cases h : byteAt s.regions a with
  | unmapped => exact .inl ⟨rfl, rfl⟩
  | initialized b => exact .inr (.inl ⟨b, rfl, rfl⟩)
  | uninitialized => exact .inr (.inr ⟨rfl, rfl⟩)

/-- A byte that is mapped is read, and the mark records whether it was uninitialized (R55, R56). -/
theorem readByte_peek {a : Nat} {s : State} {b : Byte} (h : peekByte s.regions a = some b) :
    readByte a s = .done b { s with uninitSeen := s.uninitSeen || decide (byteAt s.regions a = .uninitialized) } := by
  obtain ⟨hb, hr⟩ | ⟨c, hb, hr⟩ | ⟨hb, hr⟩ := readByte_cases a s
  · simp [peekByte, hb] at h
  · obtain rfl : c = b := by simpa [peekByte, hb] using h
    simp [hr, hb]
  · obtain rfl : 0#8 = b := by simpa [peekByte, hb] using h
    simp [hr, hb, markUninit]

/-- The first of `n + 1` bytes, or one of the rest. -/
theorem anyUninit_succ (m : Memory) (a n : Nat) :
    anyUninit m a (n + 1) = (decide (byteAt m a = .uninitialized) || anyUninit m (a + 1) n) := by
  simp [anyUninit, List.range_succ_eq_map, List.any_map, Function.comp_def, Nat.add_assoc, Nat.add_comm 1]

/-- Only an unmapped byte yields nothing. -/
theorem peekByte_eq_none {m : Memory} {a : Nat} : peekByte m a = none ↔ byteAt m a = .unmapped := by
  unfold peekByte
  cases byteAt m a <;> simp

/-- A read of mapped bytes answers them, and the mark records whether one was uninitialized (R58, R59). -/
theorem readBytes_peek {n a : Nat} {s : State} {b : Nat → Byte}
    (h : ∀ j, j < n → peekByte s.regions (a + j) = some (b j)) :
    readBytes n a s = .done ((List.range n).map b)
      { s with uninitSeen := s.uninitSeen || anyUninit s.regions a n } := by
  induction n generalizing a s b with
  | zero => simp [readBytes, anyUninit]
  | succ n ih =>
    have h0 := readByte_peek (h 0 (by omega))
    have hs := ih (a := a + 1) (b := fun j => b (j + 1))
      (s := { s with uninitSeen := s.uninitSeen || decide (byteAt s.regions a = .uninitialized) })
      (fun j hj => by have := h (j + 1) (by omega); simpa [Nat.add_assoc, Nat.add_comm 1] using this)
    simp only [Nat.add_zero] at h0
    simp only [readBytes, h0, hs, anyUninit_succ, Bool.or_assoc]
    simp [List.range_succ_eq_map]

/-- A read stops at its first unmapped byte, with the mark set by the bytes before it (R59). -/
theorem readBytes_first_unmapped {n a j : Nat} {s : State} (hj : j < n)
    (hu : byteAt s.regions (a + j) = .unmapped) (hm : ∀ l, l < j → byteAt s.regions (a + l) ≠ .unmapped) :
    readBytes n a s = .unknown (a + j) { s with uninitSeen := s.uninitSeen || anyUninit s.regions a j } := by
  induction j generalizing n a s with
  | zero =>
    obtain ⟨n, rfl⟩ : ∃ k, n = k + 1 := ⟨n - 1, by omega⟩
    simp only [Nat.add_zero] at hu
    simp [readBytes, readByte, hu, anyUninit]
  | succ j ih =>
    obtain ⟨n, rfl⟩ : ∃ k, n = k + 1 := ⟨n - 1, by omega⟩
    obtain ⟨b, hb⟩ := Option.ne_none_iff_exists'.1 (mt peekByte_eq_none.1 (hm 0 (by omega)))
    have h0 := readByte_peek hb
    simp only [Nat.add_zero] at h0
    have hs := ih (n := n) (a := a + 1)
      (s := { s with uninitSeen := s.uninitSeen || decide (byteAt s.regions a = .uninitialized) })
      (by omega) (by simpa [Nat.add_assoc, Nat.add_comm 1] using hu)
      (fun l hl => by have := hm (l + 1) (by omega); simpa [Nat.add_assoc, Nat.add_comm 1] using this)
    simp only [readBytes, h0, hs, anyUninit_succ, Bool.or_assoc]
    simp [Nat.add_assoc, Nat.add_comm 1]

/-- However a read ends, it changes nothing but the mark (R51, R56, R59). -/
theorem readBytes_frame (n a : Nat) (s : State) :
    (readBytes n a s).state = { s with uninitSeen := (readBytes n a s).state.uninitSeen } := by
  induction n generalizing a s with
  | zero => rfl
  | succ n ih =>
    unfold readBytes
    obtain ⟨-, h⟩ | ⟨b, -, h⟩ | ⟨-, h⟩ := readByte_cases a s <;> simp only [h]
    · rfl
    · have := ih (a + 1) s
      revert this
      cases readBytes n (a + 1) s <;> exact id
    · have := ih (a + 1) (markUninit s)
      revert this
      cases readBytes n (a + 1) (markUninit s) <;> exact id

/-- The state after a fetch that succeeds: `pc` advanced, the mark set if a fetched byte was uninitialized. -/
def afterFetch (s : State) : State :=
  { s with
    pc := s.pc + Config.pcStep
    uninitSeen := s.uninitSeen || anyUninit s.regions s.pc.toNat 4 }

@[simp] theorem afterFetch_gpr (s : State) : (afterFetch s).gpr = s.gpr := rfl
@[simp] theorem afterFetch_fpr (s : State) : (afterFetch s).fpr = s.fpr := rfl
@[simp] theorem afterFetch_hi (s : State) : (afterFetch s).hi = s.hi := rfl
@[simp] theorem afterFetch_lo (s : State) : (afterFetch s).lo = s.lo := rfl
@[simp] theorem afterFetch_pc (s : State) : (afterFetch s).pc = s.pc + Config.pcStep := rfl
@[simp] theorem afterFetch_regions (s : State) : (afterFetch s).regions = s.regions := rfl
@[simp] theorem afterFetch_halt (s : State) : (afterFetch s).halt = s.halt := rfl
@[simp] theorem afterFetch_uninitSeen (s : State) :
    (afterFetch s).uninitSeen = (s.uninitSeen || anyUninit s.regions s.pc.toNat 4) := rfl
@[simp] theorem readReg_afterFetch (i : Idx5) (s : State) : readReg i (afterFetch s) = readReg i s := rfl

/-- The fetch of a word whose bytes are mapped (R212). -/
theorem fetch_of_peekWord {s : State} {w : Word} (h : peekWord s.regions s.pc.toNat = some w) :
    fetch s = .done w (afterFetch s) := by
  unfold peekWord at h
  split at h
  · rename_i b0 b1 b2 b3 h0 h1 h2 h3
    have hr := readBytes_peek (n := 4) (a := s.pc.toNat) (s := s) (b := fun j => [b0, b1, b2, b3].getD j 0#8)
      (fun j hj => by interval_cases j <;> simp [h0, h1, h2, h3])
    simp only [fetch, hr]
    cases h
    rfl
  · cases h

/-- A word that cannot be read has a first unmapped byte. -/
theorem peekWord_eq_none {m : Memory} {a : Nat} :
    peekWord m a = none ↔ ∃ j, j < 4 ∧ byteAt m (a + j) = .unmapped ∧ ∀ l, l < j → byteAt m (a + l) ≠ .unmapped := by
  constructor
  · intro h
    by_contra hc
    have h4 : ∀ j, j < 4 → peekByte m (a + j) ≠ none := by
      intro j
      induction j using Nat.strong_induction_on with
      | _ j ih =>
        intro hj he
        exact hc ⟨j, hj, peekByte_eq_none.1 he, fun l hl e => ih l hl (by omega) (peekByte_eq_none.2 e)⟩
    obtain ⟨b0, h0⟩ := Option.ne_none_iff_exists'.1 (h4 0 (by omega))
    obtain ⟨b1, h1⟩ := Option.ne_none_iff_exists'.1 (h4 1 (by omega))
    obtain ⟨b2, h2⟩ := Option.ne_none_iff_exists'.1 (h4 2 (by omega))
    obtain ⟨b3, h3⟩ := Option.ne_none_iff_exists'.1 (h4 3 (by omega))
    simp only [Nat.add_zero] at h0
    simp [peekWord, h0, h1, h2, h3] at h
  · rintro ⟨j, hj, hu, -⟩
    have := peekByte_eq_none.2 hu
    unfold peekWord
    interval_cases j <;> simp_all

/-- The fetch of a word with an unmapped byte (R212, R216): `pc` is not advanced. -/
theorem fetch_first_unmapped {s : State} {j : Nat} (hj : j < 4)
    (hu : byteAt s.regions (s.pc.toNat + j) = .unmapped)
    (hm : ∀ l, l < j → byteAt s.regions (s.pc.toNat + l) ≠ .unmapped) :
    fetch s = .unknown (s.pc.toNat + j)
      { s with uninitSeen := s.uninitSeen || anyUninit s.regions s.pc.toNat j } := by
  simp [fetch, readBytes_first_unmapped hj hu hm]

end Sys2Proof.Machine
end

