-- ==== Sys2Proof/Laws/Codec.lean ====
section
/-! SUPPORT. What the layouts of R92, R93 and R94 put where: every field of a packed word. -/

namespace Sys2Proof

section Layout

variable (rs rt rd sh : Idx5) (fn op : Six) (imm : Half) (tg : Target26)

@[simp] theorem opcodeOf_wordR : opcodeOf (wordR rs rt rd sh fn) = 0#6 := by
  refine BitVec.eq_of_getLsbD_eq fun i hi => ?_
  simp only [opcodeOf, wordR, BitVec.getLsbD_extractLsb', BitVec.getLsbD_append]
  interval_cases i <;> simp

@[simp] theorem rsOf_wordR : rsOf (wordR rs rt rd sh fn) = rs := by
  refine BitVec.eq_of_getLsbD_eq fun i hi => ?_
  simp only [rsOf, wordR, BitVec.getLsbD_extractLsb', BitVec.getLsbD_append]
  interval_cases i <;> simp

@[simp] theorem rtOf_wordR : rtOf (wordR rs rt rd sh fn) = rt := by
  refine BitVec.eq_of_getLsbD_eq fun i hi => ?_
  simp only [rtOf, wordR, BitVec.getLsbD_extractLsb', BitVec.getLsbD_append]
  interval_cases i <;> simp

@[simp] theorem rdOf_wordR : rdOf (wordR rs rt rd sh fn) = rd := by
  refine BitVec.eq_of_getLsbD_eq fun i hi => ?_
  simp only [rdOf, wordR, BitVec.getLsbD_extractLsb', BitVec.getLsbD_append]
  interval_cases i <;> simp

@[simp] theorem shamtOf_wordR : shamtOf (wordR rs rt rd sh fn) = sh := by
  refine BitVec.eq_of_getLsbD_eq fun i hi => ?_
  simp only [shamtOf, wordR, BitVec.getLsbD_extractLsb', BitVec.getLsbD_append]
  interval_cases i <;> simp

@[simp] theorem functOf_wordR : functOf (wordR rs rt rd sh fn) = fn := by
  refine BitVec.eq_of_getLsbD_eq fun i hi => ?_
  simp only [functOf, wordR, BitVec.getLsbD_extractLsb', BitVec.getLsbD_append]
  interval_cases i <;> simp

@[simp] theorem opcodeOf_wordI : opcodeOf (wordI op rs rt imm) = op := by
  refine BitVec.eq_of_getLsbD_eq fun i hi => ?_
  simp only [opcodeOf, wordI, BitVec.getLsbD_extractLsb', BitVec.getLsbD_append]
  interval_cases i <;> simp

@[simp] theorem rsOf_wordI : rsOf (wordI op rs rt imm) = rs := by
  refine BitVec.eq_of_getLsbD_eq fun i hi => ?_
  simp only [rsOf, wordI, BitVec.getLsbD_extractLsb', BitVec.getLsbD_append]
  interval_cases i <;> simp

@[simp] theorem rtOf_wordI : rtOf (wordI op rs rt imm) = rt := by
  refine BitVec.eq_of_getLsbD_eq fun i hi => ?_
  simp only [rtOf, wordI, BitVec.getLsbD_extractLsb', BitVec.getLsbD_append]
  interval_cases i <;> simp

@[simp] theorem immOf_wordI : immOf (wordI op rs rt imm) = imm := by
  refine BitVec.eq_of_getLsbD_eq fun i hi => ?_
  simp only [immOf, wordI, BitVec.getLsbD_extractLsb', BitVec.getLsbD_append]
  interval_cases i <;> simp

@[simp] theorem opcodeOf_wordJ : opcodeOf (wordJ op tg) = op := by
  refine BitVec.eq_of_getLsbD_eq fun i hi => ?_
  simp only [opcodeOf, wordJ, BitVec.getLsbD_extractLsb', BitVec.getLsbD_append]
  interval_cases i <;> simp

@[simp] theorem targetOf_wordJ : targetOf (wordJ op tg) = tg := by
  refine BitVec.eq_of_getLsbD_eq fun i hi => ?_
  simp only [targetOf, wordJ, BitVec.getLsbD_extractLsb', BitVec.getLsbD_append]
  interval_cases i <;> simp

end Layout

/-- The I layout puts a word's own fields back (R95). -/
theorem wordI_fields (w : Word) : wordI (opcodeOf w) (rsOf w) (rtOf w) (immOf w) = w := by
  refine BitVec.eq_of_getLsbD_eq fun i hi => ?_
  simp only [wordI, opcodeOf, rsOf, rtOf, immOf, BitVec.getLsbD_extractLsb', BitVec.getLsbD_append]
  interval_cases i <;> simp

/-- The J layout puts a word's own fields back (R95). -/
theorem wordJ_fields (w : Word) : wordJ (opcodeOf w) (targetOf w) = w := by
  refine BitVec.eq_of_getLsbD_eq fun i hi => ?_
  simp only [wordJ, opcodeOf, targetOf, BitVec.getLsbD_extractLsb', BitVec.getLsbD_append]
  interval_cases i <;> simp

/-- `mask` returns its input or fails (R130, R131). -/
theorem mask_eq_ok {v w : Word} {n : Nat} : mask v n = .ok w ↔ v.toNat < 2 ^ n ∧ w = v := by
  unfold mask
  split <;> rename_i h
  · simp [h, eq_comm]
  · simp [h]

/-- A field's check returns its input or names the field (R132, R137). -/
theorem maskField_eq (f : Field) (v : Word) :
    maskField f v = if v.toNat < 2 ^ f.width then .ok v else .error (.overflow v.toNat f.width (some f)) := by
  unfold maskField mask
  split <;> rename_i h <;> split at h <;> simp_all

/-- The decoder extends the engine's: what the engine selects, it selects. -/
theorem decodeWord_of_engine {w : Word} {i : Instr} (h : engineDecode w = some i) : decodeWord w = .ok i := by
  simp [decodeWord, h]

/-- What the decoder reads beyond the engine's selections is an encode-only row, whose word holds every bit of it. -/
theorem decodeWord_beyond_engine {w : Word} {i : Instr} (he : engineDecode w = none) (h : decodeWord w = .ok i) :
    i.executes = false ∧ encode i = w := by
  unfold decodeWord at h
  rw [he] at h
  simp only at h
  split at h
  · cases h
  · rename_i ho; cases h; exact ⟨rfl, by rw [encode, ← ho, wordI_fields]⟩
  · rename_i ho; cases h; exact ⟨rfl, by rw [encode, ← ho, wordI_fields]⟩
  · rename_i ho; cases h; exact ⟨rfl, by rw [encode, ← ho, wordJ_fields]⟩
  · cases h

/-- The engine selects executable instructions only. -/
theorem engineDecode_executes {w : Word} {i : Instr} (h : engineDecode w = some i) : i.executes = true := by
  unfold engineDecode at h
  split at h <;> split at h <;> cases h <;> rfl

/-- A word that fits `n` bits has no bit at or past `n`. -/
theorem bits_of_fits {v : Word} {n : Nat} (h : v.toNat < 2 ^ n) (k : Nat) (hb : k < 32) (hk : n ≤ k) :
    v[k] = false := by
  rw [← BitVec.getLsbD_eq_getElem, BitVec.getLsbD, Nat.testBit_lt_two_pow]
  exact lt_of_lt_of_le h (Nat.pow_le_pow_right (by omega) hk)

/-- Everything `pack_r` can answer on fields in range (R134): the R layout of them. -/
theorem packR_ok {rs rt rd sh fn : Word} (h1 : rs.toNat < 32) (h2 : rt.toNat < 32) (h3 : rd.toNat < 32)
    (h4 : sh.toNat < 32) (h5 : fn.toNat < 64) : packR rs rt rd sh fn =
      .ok (wordR (rs.setWidth 5) (rt.setWidth 5) (rd.setWidth 5) (sh.setWidth 5) (fn.setWidth 6)) := by
  have hp : packR rs rt rd sh fn = .ok (rs <<< 21 ||| rt <<< 16 ||| rd <<< 11 ||| sh <<< 6 ||| fn) := by
    simp [packR, pack, placed, placedTarget, placedImm, maskField_eq, Field.width, Field.lsb, h1, h2, h3, h4, h5,
      bind, Except.bind, pure, Except.pure]
  have b1 := bits_of_fits (n := 5) h1
  have b2 := bits_of_fits (n := 5) h2
  have b3 := bits_of_fits (n := 5) h3
  have b4 := bits_of_fits (n := 5) h4
  have b5 := bits_of_fits (n := 6) h5
  rw [hp]
  refine congrArg Except.ok (BitVec.eq_of_getLsbD_eq fun i hi => ?_)
  simp only [wordR, BitVec.getLsbD_append, BitVec.getLsbD_or, BitVec.getLsbD_shiftLeft, BitVec.getLsbD_setWidth]
  interval_cases i <;> simp [b1, b2, b3, b4, b5]

/-- Everything `pack_i` can answer on fields in range (R135): the I layout of them. -/
theorem packI_ok {op rs rt : Word} {imm : Half} (h0 : op.toNat < 64) (h1 : rs.toNat < 32) (h2 : rt.toNat < 32) :
    packI op rs rt imm = .ok (wordI (op.setWidth 6) (rs.setWidth 5) (rt.setWidth 5) imm) := by
  have hp : packI op rs rt imm = .ok (op <<< 26 ||| rs <<< 21 ||| rt <<< 16 ||| imm.setWidth 32) := by
    simp [packI, pack, placed, placedTarget, placedImm, maskField_eq, Field.width, Field.lsb, h0, h1, h2, bind,
      Except.bind, pure, Except.pure]
  have b1 := bits_of_fits (n := 5) h1
  have b2 := bits_of_fits (n := 5) h2
  rw [hp]
  refine congrArg Except.ok (BitVec.eq_of_getLsbD_eq fun i hi => ?_)
  simp only [wordI, BitVec.getLsbD_append, BitVec.getLsbD_or, BitVec.getLsbD_shiftLeft, BitVec.getLsbD_setWidth]
  interval_cases i <;> simp [b1, b2]

/-- Everything `pack_j` can answer on an opcode in range (R136): bits 27:2 of the address in the J layout. -/
theorem packJ_ok {op a : Word} (h0 : op.toNat < 64) :
    packJ op a = .ok (wordJ (op.setWidth 6) (a.extractLsb' 2 26)) := by
  have hm : (a &&& 0x0FFFFFFF#32).toNat < 2 ^ Field.target.width := by
    rw [BitVec.toNat_and]; exact lt_of_le_of_lt Nat.and_le_right (by decide)
  have ho : op.toNat < 2 ^ Field.opcode.width := h0
  have hp : packJ op a = .ok (op <<< 26 ||| (a &&& 0x0FFFFFFF#32) >>> 2) := by
    simp only [packJ, pack, placed, placedTarget, placedImm, maskField_eq, hm, ho, if_true, Field.lsb, bind,
      Except.bind, pure, Except.pure]
    simp
  rw [hp]
  refine congrArg Except.ok (BitVec.eq_of_getLsbD_eq fun i hi => ?_)
  simp only [wordJ, BitVec.getLsbD_append, BitVec.getLsbD_or, BitVec.getLsbD_shiftLeft, BitVec.getLsbD_setWidth,
    BitVec.getLsbD_ushiftRight, BitVec.getLsbD_and, BitVec.getLsbD_extractLsb']
  interval_cases i <;> simp

end Sys2Proof
end

