-- ==== Sys2Proof/Laws/PerInstr.lean ====
section
/-! SUPPORT. Statements made per instruction, one lemma per constructor of Instr, and the two lemmas they rest on: a
word belongs to an R row by its opcode and funct, to any other row by its opcode alone (R107). -/

namespace Sys2Proof

/-- The bits an R row looks at. -/
theorem and_rowMaskR (w : Word) :
    w &&& 0xFC00003F#32 = (opcodeOf w).setWidth 32 <<< 26 ||| (functOf w).setWidth 32 := by
  refine BitVec.eq_of_getLsbD_eq fun i hi => ?_
  simp only [opcodeOf, functOf, BitVec.getLsbD_and, BitVec.getLsbD_or, BitVec.getLsbD_shiftLeft,
    BitVec.getLsbD_setWidth, BitVec.getLsbD_extractLsb']
  interval_cases i <;> simp

/-- The bits any other row looks at. -/
theorem and_rowMaskI (w : Word) : w &&& 0xFC000000#32 = (opcodeOf w).setWidth 32 <<< 26 := by
  refine BitVec.eq_of_getLsbD_eq fun i hi => ?_
  simp only [opcodeOf, BitVec.getLsbD_and, BitVec.getLsbD_shiftLeft, BitVec.getLsbD_setWidth,
    BitVec.getLsbD_extractLsb']
  interval_cases i <;> simp

/-- The two selecting fields can be read off their placement. -/
theorem selectors_injective {op op' fn fn' : Six}
    (h : op.setWidth 32 <<< 26 ||| fn.setWidth 32 = (op'.setWidth 32 <<< 26 ||| fn'.setWidth 32 : Word)) :
    op = op' ∧ fn = fn' := by
  constructor <;> refine BitVec.eq_of_getLsbD_eq fun i hi => ?_
  · have := congrArg (fun w : Word => w.getLsbD (i + 26)) h
    have h6 : ∀ v : Six, v.getLsbD (i + 26) = false := fun v => BitVec.getLsbD_of_ge v (i + 26) (by omega)
    simpa [show i + 26 < 32 by omega, h6, show i < 32 by omega] using this
  · have := congrArg (fun w : Word => w.getLsbD i) h
    simpa [show i < 32 by omega, show i < 26 by omega] using this

/-- An R row holds exactly the words of its funct under opcode 0. -/
theorem matchesWord_rowR (m : Token) (fn : Six) (x : Bool) (w : Word) :
    (Row.mk m (fn.setWidth 32) 0xFC00003F#32 x).matchesWord w = true ↔ opcodeOf w = 0#6 ∧ functOf w = fn := by
  have hz : (fn.setWidth 32 : Word) = (0#6).setWidth 32 <<< 26 ||| fn.setWidth 32 := by simp
  simp only [Row.matchesWord, beq_iff_eq, and_rowMaskR]
  constructor
  · intro h; rw [hz] at h; exact selectors_injective h
  · rintro ⟨h1, h2⟩; rw [h1, h2]; exact hz.symm

/-- Any other row holds exactly the words of its opcode. -/
theorem matchesWord_rowI (m : Token) (op : Six) (x : Bool) (w : Word) :
    (Row.mk m (op.setWidth 32 <<< 26) 0xFC000000#32 x).matchesWord w = true ↔ opcodeOf w = op := by
  simp only [Row.matchesWord, beq_iff_eq, and_rowMaskI]
  refine ⟨fun h => ?_, fun h => by rw [h]⟩
  refine (selectors_injective (fn := 0#6) (fn' := 0#6) ?_).1
  rw [h]

/-- The table's rows by the field values that select them (R105, R106). -/
theorem opcodeTable_rows : opcodeTable = [
    ⟨['s', 'l', 'l'], (0x00#6).setWidth 32, 0xFC00003F#32, true⟩,
    ⟨['s', 'r', 'l'], (0x02#6).setWidth 32, 0xFC00003F#32, true⟩,
    ⟨['a', 'd', 'd'], (0x20#6).setWidth 32, 0xFC00003F#32, true⟩,
    ⟨['s', 'u', 'b'], (0x22#6).setWidth 32, 0xFC00003F#32, true⟩,
    ⟨['x', 'o', 'r'], (0x26#6).setWidth 32, 0xFC00003F#32, true⟩,
    ⟨['o', 'r', 'i'], (0x0D#6).setWidth 32 <<< 26, 0xFC000000#32, true⟩,
    ⟨['l', 'u', 'i'], (0x0F#6).setWidth 32 <<< 26, 0xFC000000#32, true⟩,
    ⟨['l', 'w'], (0x23#6).setWidth 32 <<< 26, 0xFC000000#32, false⟩,
    ⟨['b', 'e', 'q'], (0x04#6).setWidth 32 <<< 26, 0xFC000000#32, false⟩,
    ⟨['j'], (0x02#6).setWidth 32 <<< 26, 0xFC000000#32, false⟩] := by decide

end Sys2Proof

namespace Sys2Proof.Laws.RowMatch

/-- The encoder's word of an instruction belongs to the instruction's own row of opcode_table.json and to no row of
another mnemonic (R104, R107). -/
def Statement (i : Instr) : Prop :=
  ∀ r ∈ opcodeTable, (r.matchesWord (encode i) = true ↔ r.mnemonic = i.mnemonic)

theorem sll (rd : Idx5) (rt : Idx5) (shamt : Idx5) : Statement (.sll rd rt shamt) := by
  intro r hr
  simp only [opcodeTable_rows, List.mem_cons, List.not_mem_nil, or_false] at hr
  rcases hr with rfl | rfl | rfl | rfl | rfl | rfl | rfl | rfl | rfl | rfl <;>
    simp only [matchesWord_rowR, matchesWord_rowI] <;> simp [encode, Instr.mnemonic]

theorem srl (rd : Idx5) (rt : Idx5) (shamt : Idx5) : Statement (.srl rd rt shamt) := by
  intro r hr
  simp only [opcodeTable_rows, List.mem_cons, List.not_mem_nil, or_false] at hr
  rcases hr with rfl | rfl | rfl | rfl | rfl | rfl | rfl | rfl | rfl | rfl <;>
    simp only [matchesWord_rowR, matchesWord_rowI] <;> simp [encode, Instr.mnemonic]

theorem add (rd : Idx5) (rs : Idx5) (rt : Idx5) : Statement (.add rd rs rt) := by
  intro r hr
  simp only [opcodeTable_rows, List.mem_cons, List.not_mem_nil, or_false] at hr
  rcases hr with rfl | rfl | rfl | rfl | rfl | rfl | rfl | rfl | rfl | rfl <;>
    simp only [matchesWord_rowR, matchesWord_rowI] <;> simp [encode, Instr.mnemonic]

theorem sub (rd : Idx5) (rs : Idx5) (rt : Idx5) : Statement (.sub rd rs rt) := by
  intro r hr
  simp only [opcodeTable_rows, List.mem_cons, List.not_mem_nil, or_false] at hr
  rcases hr with rfl | rfl | rfl | rfl | rfl | rfl | rfl | rfl | rfl | rfl <;>
    simp only [matchesWord_rowR, matchesWord_rowI] <;> simp [encode, Instr.mnemonic]

theorem xor (rd : Idx5) (rs : Idx5) (rt : Idx5) : Statement (.xor rd rs rt) := by
  intro r hr
  simp only [opcodeTable_rows, List.mem_cons, List.not_mem_nil, or_false] at hr
  rcases hr with rfl | rfl | rfl | rfl | rfl | rfl | rfl | rfl | rfl | rfl <;>
    simp only [matchesWord_rowR, matchesWord_rowI] <;> simp [encode, Instr.mnemonic]

theorem ori (rt : Idx5) (rs : Idx5) (imm : Half) : Statement (.ori rt rs imm) := by
  intro r hr
  simp only [opcodeTable_rows, List.mem_cons, List.not_mem_nil, or_false] at hr
  rcases hr with rfl | rfl | rfl | rfl | rfl | rfl | rfl | rfl | rfl | rfl <;>
    simp only [matchesWord_rowR, matchesWord_rowI] <;> simp [encode, Instr.mnemonic]

theorem lui (rt : Idx5) (imm : Half) : Statement (.lui rt imm) := by
  intro r hr
  simp only [opcodeTable_rows, List.mem_cons, List.not_mem_nil, or_false] at hr
  rcases hr with rfl | rfl | rfl | rfl | rfl | rfl | rfl | rfl | rfl | rfl <;>
    simp only [matchesWord_rowR, matchesWord_rowI] <;> simp [encode, Instr.mnemonic]

theorem lw (rt : Idx5) (imm : Half) (rs : Idx5) : Statement (.lw rt imm rs) := by
  intro r hr
  simp only [opcodeTable_rows, List.mem_cons, List.not_mem_nil, or_false] at hr
  rcases hr with rfl | rfl | rfl | rfl | rfl | rfl | rfl | rfl | rfl | rfl <;>
    simp only [matchesWord_rowR, matchesWord_rowI] <;> simp [encode, Instr.mnemonic]

theorem beq (rs : Idx5) (rt : Idx5) (imm : Half) : Statement (.beq rs rt imm) := by
  intro r hr
  simp only [opcodeTable_rows, List.mem_cons, List.not_mem_nil, or_false] at hr
  rcases hr with rfl | rfl | rfl | rfl | rfl | rfl | rfl | rfl | rfl | rfl <;>
    simp only [matchesWord_rowR, matchesWord_rowI] <;> simp [encode, Instr.mnemonic]

theorem j (target : Target26) : Statement (.j target) := by
  intro r hr
  simp only [opcodeTable_rows, List.mem_cons, List.not_mem_nil, or_false] at hr
  rcases hr with rfl | rfl | rfl | rfl | rfl | rfl | rfl | rfl | rfl | rfl <;>
    simp only [matchesWord_rowR, matchesWord_rowI] <;> simp [encode, Instr.mnemonic]

end Sys2Proof.Laws.RowMatch
end

