-- ==== Sys2Proof/Laws/Step.lean ====
section
/-! SUPPORT. Everything a dispatched instruction and a step can do, said once. -/

namespace Sys2Proof.Machine

/-- Everything `exec` can do: an executable instruction writes one general register, an encode-only one takes the
fatal condition with its own word. -/
theorem exec_cases (i : Instr) (s : State) :
    (i.executes = true ∧ ∃ d v, exec i s = .next (writeReg d v s)) ∨
    (i.executes = false ∧ exec i s = takeUnimplemented (encode i) s) := by
  cases i with
  | sll rd rt shamt => exact .inl ⟨rfl, _, _, rfl⟩
  | srl rd rt shamt => exact .inl ⟨rfl, _, _, rfl⟩
  | add rd rs rt => exact .inl ⟨rfl, _, _, rfl⟩
  | sub rd rs rt => exact .inl ⟨rfl, _, _, rfl⟩
  | xor rd rs rt => exact .inl ⟨rfl, _, _, rfl⟩
  | ori rt rs imm => exact .inl ⟨rfl, _, _, rfl⟩
  | lui rt imm => exact .inl ⟨rfl, _, _, rfl⟩
  | lw rt imm rs => exact .inr ⟨rfl, rfl⟩
  | beq rs rt imm => exact .inr ⟨rfl, rfl⟩
  | j target => exact .inr ⟨rfl, rfl⟩

/-- A halted engine has no step (R211). -/
theorem step_halted {s : State} {r : HaltReason} (h : s.halt = some r) : step s = .fault (.halted r) := by
  simp [step, h]

/-- A step whose fetch fails (R212). -/
theorem step_unknown {s t : State} {a : Nat} (hs : s.halt = none) (h : fetch s = .unknown a t) :
    step s = .next (markHalt (.memoryUnknownAccess a) t) := by
  simp [step, hs, h, takeFatal]

/-- A step whose word the engine's decode does not select (R215), an encode-only row's among them. -/
theorem step_unimplemented {s t : State} {w : Word} (hs : s.halt = none) (h : fetch s = .done w t)
    (hd : engineDecode w = none) :
    step s = .next (markHalt (.unimplementedInstruction w (t.pc - Config.pcStep)) t) := by
  cases hw : decodeWord w with
  | error e => simp [step, hs, h, hw, takeUnimplemented, takeFatal]
  | ok i =>
    obtain ⟨he, hi⟩ := decodeWord_beyond_engine hd hw
    obtain ⟨ht, -⟩ | ⟨-, hx⟩ := exec_cases i t
    · simp [he] at ht
    · simp [step, hs, h, hw, hx, hi, takeUnimplemented, takeFatal]

/-- A step whose word the engine's decode selects (R219). -/
theorem step_exec {s t : State} {w : Word} {i : Instr} (hs : s.halt = none) (h : fetch s = .done w t)
    (hd : engineDecode w = some i) : step s = exec i t := by
  simp [step, hs, h, decodeWord_of_engine hd]

/-- Everything a step can do: nothing while halted; the fatal condition of the first unmapped byte at `pc`; the fatal
condition of a word the engine's decode does not select; or one register write after the fetch. -/
theorem step_cases (s : State) :
    (∃ r, s.halt = some r ∧ step s = .fault (.halted r)) ∨
    (s.halt = none ∧ ∃ j, j < 4 ∧ byteAt s.regions (s.pc.toNat + j) = .unmapped ∧
      (∀ l, l < j → byteAt s.regions (s.pc.toNat + l) ≠ .unmapped) ∧
      step s = .next (markHalt (.memoryUnknownAccess (s.pc.toNat + j))
        { s with uninitSeen := s.uninitSeen || anyUninit s.regions s.pc.toNat j })) ∨
    (s.halt = none ∧ ∃ w, peekWord s.regions s.pc.toNat = some w ∧ engineDecode w = none ∧
      step s = .next (markHalt (.unimplementedInstruction w s.pc) (afterFetch s))) ∨
    (s.halt = none ∧ ∃ w i d v, peekWord s.regions s.pc.toNat = some w ∧ engineDecode w = some i ∧
      step s = exec i (afterFetch s) ∧ step s = .next (writeReg d v (afterFetch s))) := by
  rcases Option.eq_none_or_eq_some s.halt with hs | ⟨r, hr⟩
  · cases hp : peekWord s.regions s.pc.toNat with
    | none =>
      obtain ⟨j, hj, hu, hm⟩ := peekWord_eq_none.1 hp
      exact .inr (.inl ⟨hs, j, hj, hu, hm, step_unknown hs (fetch_first_unmapped hj hu hm)⟩)
    | some w =>
      have hf := fetch_of_peekWord hp
      cases hd : engineDecode w with
      | none =>
        have h := step_unimplemented hs hf hd
        rw [afterFetch_pc, BitVec.add_sub_cancel] at h
        exact .inr (.inr (.inl ⟨hs, w, rfl, hd, h⟩))
      | some i =>
        have h := step_exec hs hf hd
        obtain ⟨-, d, v, hx⟩ | ⟨he, -⟩ := exec_cases i (afterFetch s)
        · exact .inr (.inr (.inr ⟨hs, w, i, d, v, rfl, hd, h, h.trans hx⟩))
        · simp [engineDecode_executes hd] at he
  · exact .inl ⟨r, hr, step_halted hr⟩

end Sys2Proof.Machine
end

