-- ==== Sys2Proof/Tests/Slice0.lean ====
section
/-! SUPPORT. The model's own tests. Expected values are the spec's (95_test_vectors.md, named by section) or words
written out bit by bit from the layouts of R92, R93 and R94; after them one witness for every statement that has
hypotheses. -/

namespace Sys2Proof.Tests

open Sys2Proof.Machine

/-! ### Helpers -/

/-- A state at reset whose one region holds the words of a program at the text base (the premise of Part 3). -/
def boot (max : Nat) (ws : List Word) : State :=
  { State.reset with regions := [Region.ofBytes 0x00400000#32 max (objectStream ws)] }

/-- The same with one register set. -/
def boot1 (i : Idx5) (v : Word) (ws : List Word) : State := writeReg i v (boot 16 ws)

/-- The same with two registers set. -/
def boot2 (i : Idx5) (v : Word) (k : Idx5) (u : Word) (ws : List Word) : State := writeReg k u (boot1 i v ws)

/-- A register after one successful step, with the program counter after it. -/
def afterStep (i : Idx5) (s : State) : Option (Word × Word) :=
  match step s with
  | .next t => if t.halt = none then some (readReg i t, t.pc) else none
  | .fault _ => none
  | .refused _ => none

/-- The marks and the program counter after one step. -/
def marksAfterStep (s : State) : Option (Option HaltReason × Bool × Word) :=
  match step s with
  | .next t => some (t.halt, t.uninitSeen, t.pc)
  | .fault _ => none
  | .refused _ => none

/-- The state after one step, or the state itself. -/
def stepOr (s : State) : State :=
  match step s with
  | .next t => t
  | .fault _ => s
  | .refused _ => s

/-- The value of a primitive and the mark it leaves. -/
def seen {α : Type} (x : Access α) : Option α × Bool := (x.value?, x.state.uninitSeen)

/-- The address of a failed primitive. -/
def failed {α : Type} : Access α → Option Nat
  | .done _ _ => none
  | .unknown a _ => some a

/-- The regions of 95_test_vectors.md 2.6. -/
def regA : Region := Region.ofBytes 0x00400000#32 16 [0x20, 0x40, 0x00, 0x00, 0xFF, 0x00]
def regB : Region := Region.ofBytes 0x10010000#32 8 []
def mem26 : State := { State.reset with regions := [regA, regB] }

/-- A state whose one region ends at the top of the address space. -/
def topState : State := { State.reset with regions := [Region.ofBytes 0xFFFFFFF0#32 16 []], pc := 0xFFFFFFFE#32 }

/-- A state whose fetch meets an unmapped byte at offset `j` of the word at `pc` (`j` from 0 to 3). -/
def edgeState (j : Nat) : State := { boot 16 [] with pc := BitVec.ofNat 32 (0x00400010 - j) }

/-! ### Well-formedness: an ill-formed term for each check -/

theorem test_wf_opcode_refused : PackFields.wf { opcode := some 64#32 } = false := by decide
theorem test_wf_rs_refused : PackFields.wf { rs := some 32#32 } = false := by decide
theorem test_wf_rt_refused : PackFields.wf { rt := some 32#32 } = false := by decide
theorem test_wf_rd_refused : PackFields.wf { rd := some 32#32 } = false := by decide
theorem test_wf_shamt_refused : PackFields.wf { shamt := some 32#32 } = false := by decide
theorem test_wf_funct_refused : PackFields.wf { funct := some 64#32 } = false := by decide
theorem test_wf_target_accepted : PackFields.wf { opcode := some 63#32, target := some 0xFFFFFFFF#32 } = true := by decide
theorem test_wf_minimum_catalog : minimumCatalog.wf = true := by decide
theorem test_wf_r_table_refused : Catalog.wf ⟨[(['j'], .j 2#6)], [], []⟩ = false := by decide
theorem test_wf_i_table_refused : Catalog.wf ⟨[], [(['j'], .j 2#6)], []⟩ = false := by decide
theorem test_wf_j_table_refused : Catalog.wf ⟨[], [], [(['o'], .i 13#6 .rtImm)]⟩ = false := by decide
theorem test_wf_colliding_mnemonic_refused :
    Catalog.wf ⟨[], [(['j'], .i 13#6 .rtImm)], [(['j'], .j 2#6)]⟩ = false ∧
    admitCatalog ⟨[], [(['j'], .i 13#6 .rtImm)], [(['j'], .j 2#6)]⟩ = none ∧
    admitCatalog minimumCatalog = some minimumCatalog := by decide
theorem test_wf_catalog_without_minimum_refused :
    admitCatalog ⟨[], [], []⟩ = none ∧
    admitCatalog { minimumCatalog with jTable := [(['j'], .j 3#6)] } = none := by decide
theorem test_wf_duplicate_label_refused : labelsUnique [.label ['a'], .directive ['d'] [], .label ['a']] = false := by
  decide
theorem test_wf_zero_cell_refused : Region.wf ⟨0#32, 4, 1, [(0, 0#8)]⟩ = false := by decide
theorem test_wf_unsorted_cells_refused : Region.wf ⟨0#32, 4, 2, [(1, 1#8), (0, 1#8)]⟩ = false := by decide
theorem test_wf_cell_past_backing_refused : Region.wf ⟨0#32, 4, 1, [(1, 1#8)]⟩ = false := by decide
theorem test_wf_backing_past_max_refused : Region.wf ⟨0#32, 4, 5, []⟩ = false := by decide
theorem test_wf_overlap_refused : Memory.disjoint [⟨0#32, 4, 0, []⟩, ⟨3#32, 1, 0, []⟩] = false := by decide

/-! ### Decoding: one word of every row, written out from its layout -/

theorem test_decode_sll : decodeWord 0b00000000000010000100100100000000#32 = .ok (.sll 9#5 8#5 4#5) := by decide
theorem test_decode_srl : decodeWord 0b00000000000010000101011111000010#32 = .ok (.srl 10#5 8#5 31#5) := by decide
theorem test_decode_add : decodeWord 0b00000001000010010101000000100000#32 = .ok (.add 10#5 8#5 9#5) := by decide
theorem test_decode_sub : decodeWord 0b00000001000010010101100000100010#32 = .ok (.sub 11#5 8#5 9#5) := by decide
theorem test_decode_xor : decodeWord 0b00000001000010010110000000100110#32 = .ok (.xor 12#5 8#5 9#5) := by decide
theorem test_decode_ori : decodeWord 0b00110100000010010000000011111111#32 = .ok (.ori 9#5 0#5 0x00FF#16) := by decide
theorem test_decode_lui : decodeWord 0b00111100000010000001001000110100#32 = .ok (.lui 8#5 0x1234#16) := by decide
theorem test_decode_lw : decodeWord 0b10001101001010000000000000000100#32 = .ok (.lw 8#5 4#16 9#5) := by decide
theorem test_decode_beq : decodeWord 0b00010001000010010000000000001100#32 = .ok (.beq 8#5 9#5 12#16) := by decide
theorem test_decode_j : decodeWord 0b00001000000100000000000000000010#32 = .ok (.j 0x0100002#26) := by decide

/-- R107: the fields an operation does not name are ignored (2.7). -/
theorem test_decode_ignored_fields :
    decodeWord 0x010957E0#32 = .ok (.add 10#5 8#5 9#5) ∧ decodeWord 0x3FE81234#32 = .ok (.lui 8#5 0x1234#16) := by
  decide

/-- Words outside the table are rejected by the field that selects nothing (2.7). -/
theorem test_decode_rejects :
    decodeWord 0x00000021#32 = .error (.unlistedFunct 0x21#6) ∧
    decodeWord 0xB40900FF#32 = .error (.unlistedOpcode 0x2D#6) ∧
    decodeBytes [0x20, 0x40, 0x00] = .error (.truncated 3) := by decide

/-- The engine's own decode (2.7): a J word is `Unimplemented`, and `0x2D` is not aliased to `0x0D` (D2). -/
theorem test_engine_decode :
    engineDecode 0x08100002#32 = none ∧ engineDecode 0x8D280004#32 = none ∧ engineDecode 0x1109000C#32 = none ∧
    engineDecode 0xB40900FF#32 = none ∧ engineDecode 0x00000000#32 = some (.sll 0#5 0#5 0#5) := by decide

/-- The host's two questions, on a row that executes and on an encode-only one. -/
theorem test_table_word :
    decodeTableWord 32 0x3C081234 = some (.lui 8#5 0x1234#16) ∧
    decodeTableWord 32 0x08100002 = some (.j 0x0100002#26) := by decide

theorem test_fetch_word :
    afterStep 8#5 (State.reset.withFetchWord 32 0x3C081234) = some (0x12340000#32, 0x00400004#32) ∧
    marksAfterStep (State.reset.withFetchWord 32 0x08100002) =
      some (some (.unimplementedInstruction 0x08100002#32 0x00400000#32), false, 0x00400004#32) := by decide

/-! ### The codec (2.1, 2.2, 2.3) -/

theorem test_pack_r_sll : packR 0#32 8#32 9#32 4#32 0#32 = .ok 0x00084900#32 := by decide
theorem test_pack_i_lui : packI 0x0F#32 0#32 8#32 0x1234#16 = .ok 0x3C081234#32 := by decide
theorem test_pack_j : packJ 0x02#32 0x00400008#32 = .ok 0x08100002#32 := by decide
theorem test_pack_names_first_field :
    packR 99#32 99#32 99#32 0#32 0#32 = .error (.overflow 99 5 (some .rs)) := by decide
theorem test_unpack_i : unpackI 0x35085678#32 = ⟨0x0D#6, 8#5, 8#5, 0x5678#16⟩ := by decide
theorem test_unpack_places : rtOf 0x00085000#32 = 8#5 ∧ rdOf 0x00085000#32 = 10#5 := by decide
theorem test_emit_word : emitWord 0x12345678#32 = [0x78, 0x56, 0x34, 0x12] := by decide
theorem test_load_word : loadWord 0x78#8 0x56#8 0x34#8 0x12#8 = 0x12345678#32 := by decide
theorem test_object_stream :
    objectStream [0x3C081234#32, 0x35085678#32] = [0x34, 0x12, 0x08, 0x3C, 0x78, 0x56, 0x08, 0x35] := by decide

/-! ### Register naming (2.4) -/

theorem test_regindex_names :
    regindex ['$', 'z', 'e', 'r', 'o'] = .ok 0#5 ∧ regindex ['$', 'a', 't'] = .ok 1#5 ∧
    regindex ['$', 't', '7'] = .ok 15#5 ∧ regindex ['$', 't', '8'] = .ok 24#5 ∧
    regindex ['$', 's', 'p'] = .ok 29#5 ∧ regindex ['$', 's', '7'] = .ok 23#5 ∧ regindex ['0', '8'] = .ok 8#5 := by
  decide
theorem test_regindex_refused :
    regindex ['3', '2'] = .error (.invalidRegister ['3', '2']) ∧
    regindex ['$', 'k', '0'] = .error (.malformedMnemonic ['$', 'k', '0']) ∧
    regindex ['$', 'a', '4'] = .error (.malformedMnemonic ['$', 'a', '4']) ∧
    regindex ['$', 't', '1', '0'] = .error (.malformedMnemonic ['$', 't', '1', '0']) ∧
    regindex ['t', '0'] = .error (.malformedMnemonic ['t', '0']) ∧ regindex [] = .error (.malformedMnemonic []) := by
  decide

/-! ### The assembler (2.5, A2) -/

def zero : Token := ['$', 'z', 'e', 'r', 'o']
def t0 : Token := ['$', 't', '0']
def t1 : Token := ['$', 't', '1']
def t2 : Token := ['$', 't', '2']

/-- A front-end that reads decimal literals. -/
def front : FrontEnd := ⟨fun t => BitVec.ofNat 16 (decimalValue t), decimalValue⟩

/-- One statement assembled at an address against one label `L`. -/
def asm (cur target : Word) (m : Token) (args : List Token) : Except AsmCondition Word :=
  encodeStatement front minimumCatalog [(['L'], target)] cur m args

theorem test_asm_add :
    asm 0#32 0#32 ['a', 'd', 'd'] [t0, zero, zero] = .ok 0x00004020#32 ∧
    asm 0#32 0#32 ['a', 'd', 'd'] [t0, zero] = .error (.arityMismatch ['a', 'd', 'd'] 2) ∧
    asm 0#32 0#32 ['a', 'd', 'd'] [t0, ['$', 'q', '0'], ['9', '9']] = .error (.malformedMnemonic ['$', 'q', '0']) ∧
    asm 0#32 0#32 ['a', 'd', 'd'] [t0, ['4', '0'], zero] = .error (.invalidRegister ['4', '0']) := by decide
theorem test_asm_sll :
    asm 0#32 0#32 ['s', 'l', 'l'] [t1, t0, ['3', '1']] = .ok 0x00084FC0#32 ∧
    asm 0#32 0#32 ['s', 'l', 'l'] [t1, t0, ['3', '2']] = .error (.overflow 32 5 (some .shamt)) := by decide
theorem test_asm_lw :
    asm 0#32 0#32 ['l', 'w'] [t0, ['4'], t1] = .ok 0x8D280004#32 ∧
    asm 0#32 0#32 ['l', 'w'] [t0, t1] = .ok 0x8D280000#32 ∧
    asm 0#32 0#32 ['l', 'w'] [t0] = .error (.arityMismatch ['l', 'w'] 1) := by decide
theorem test_asm_beq :
    asm 0x00400000#32 0x0040000C#32 ['b', 'e', 'q'] [t0, t1, ['L']] = .ok 0x1109000C#32 ∧
    asm 0x00400008#32 0x00400000#32 ['b', 'e', 'q'] [t0, zero, ['L']] = .ok 0x1100FFF8#32 ∧
    asm 0x00400000#32 0x00408000#32 ['b', 'e', 'q'] [t0, t1, ['L']] = .error (.overflow 32768 16 (some .imm)) := by
  decide
theorem test_asm_j :
    asm 0#32 0x00400008#32 ['j'] [['L']] = .ok 0x08100002#32 ∧
    asm 0#32 0#32 ['j'] [['M']] = .error (.undeclaredLabel ['M']) ∧
    asm 0#32 0#32 ['f'] [t0] = .error (.unknownMnemonic ['f']) := by decide

/-- The program A2 as a tree, a nested sequence in it. -/
def treeA2 : Tree := .seq [
  .node (.directive ['.', 't', 'e', 'x', 't'] []),
  .node (.label ['S']), .node (.instr ['o', 'r', 'i'] [t0, zero, ['3']]),
  .seq [.node (.label ['L']), .node (.instr ['b', 'e', 'q'] [t0, zero, ['D']]),
    .node (.instr ['s', 'u', 'b'] [t0, t0, t1])],
  .node (.instr ['j'] [['L']]),
  .node (.label ['D']), .node (.instr ['a', 'd', 'd'] [t2, t0, zero])]

theorem test_assemble_A2 : assemble front minimumCatalog 0x00400000#32 treeA2 =
    .ok [0x03, 0x00, 0x08, 0x34, 0x0C, 0x00, 0x00, 0x11, 0x22, 0x40, 0x09, 0x01, 0x01, 0x00, 0x10, 0x08,
      0x20, 0x50, 0x00, 0x01] := by rfl
theorem test_assemble_directive_refused :
    assemble front minimumCatalog 0#32 (.node (.directive ['.', 'g'] [])) =
      .error ⟨0, .unsupportedDirective ['.', 'g']⟩ := by rfl

/-! ### Memory (2.6) -/

theorem test_map :
    mapAddr mem26.regions 0x0040000F = some (0, 15) ∧ mapAddr mem26.regions 0x00400010 = none ∧
    mapAddr mem26.regions 0x003FFFFF = none ∧ mapAddr mem26.regions 0x10010007 = some (1, 7) := by decide
theorem test_mem_read_values :
    seen (memRead 0x00400000#32 .word mem26) = (some 0x00004020, false) ∧
    seen (memRead 0x00400000#32 .half mem26) = (some 0x4020, false) ∧
    seen (memRead 0x00400001#32 .word mem26) = (some 0xFF000040, false) ∧
    seen (memRead 0x00400001#32 .byte mem26) = (some 0x40, false) := by decide
theorem test_mem_read_uninitialized :
    seen (memRead 0x00400004#32 .word mem26) = (some 0x000000FF, true) ∧
    seen (memRead 0x10010000#32 .word mem26) = (some 0, true) := by decide
theorem test_mem_read_unmapped :
    failed (memRead 0x0040000E#32 .word mem26) = some 0x00400010 ∧
    seen (memRead 0x0040000E#32 .word mem26) = (none, true) := by decide
theorem test_mem_read_past_top : failed (memRead 0xFFFFFFFE#32 .word topState) = some 4294967296 := by decide
theorem test_mem_write_grows :
    (memWrite 0x00400009#32 0xAA#8 mem26).state.regions.map Region.backing =
      [[0x20, 0x40, 0, 0, 0xFF, 0, 0, 0, 0, 0xAA], []] ∧
    seen (readByte 0x00400007 (memWrite 0x00400009#32 0xAA#8 mem26).state) = (some 0, false) := by decide
theorem test_mem_write_in_place :
    (memWrite 0x00400001#32 0x41#8 mem26).state.regions.map Region.backing =
      [[0x20, 0x41, 0, 0, 0xFF, 0], []] ∧
    failed (memWrite 0x00400010#32 0#8 mem26) = some 0x00400010 := by decide

/-- R23: a host write of a general register, register 0 too, and of no other. -/
theorem test_host_writes_register :
    readReg 0#5 (hostApply (.writeReg 0#5 7#32) mem26) = 7#32 ∧
    readReg 1#5 (hostApply (.writeReg 0#5 7#32) mem26) = 0#32 := by decide

/-! ### One step of each instruction (2.8) -/

theorem test_sll_31 : afterStep 13#5 (boot1 8#5 0x01234567#32 [0x00086FC0#32]) = some (0x80000000#32, 0x00400004#32) := by
  decide
theorem test_sll_same_register :
    afterStep 8#5 (boot1 8#5 0x12345678#32 [0x00084400#32]) = some (0x56780000#32, 0x00400004#32) := by decide
theorem test_srl_logical :
    afterStep 14#5 (boot1 13#5 0x80000000#32 [0x000D77C2#32]) = some (0x00000001#32, 0x00400004#32) := by decide
theorem test_srl_same_register :
    afterStep 8#5 (boot1 8#5 0x12345678#32 [0x00084102#32]) = some (0x01234567#32, 0x00400004#32) := by decide
theorem test_add_wraps :
    afterStep 10#5 (boot2 8#5 0xFFFFFFFF#32 9#5 1#32 [0x01095020#32]) = some (0#32, 0x00400004#32) := by decide
theorem test_add_register_zero :
    afterStep 8#5 (boot1 0#5 1#32 [0x00004020#32]) = some (2#32, 0x00400004#32) := by decide
theorem test_sub_order :
    afterStep 11#5 (boot2 8#5 5#32 9#5 7#32 [0x01095822#32]) = some (0xFFFFFFFE#32, 0x00400004#32) := by decide
theorem test_sub_no_overflow :
    afterStep 9#5 (boot1 8#5 0x80000000#32 [0x00084822#32]) = some (0x80000000#32, 0x00400004#32) := by decide
theorem test_xor : afterStep 12#5 (boot2 8#5 5#32 9#5 7#32 [0x01096026#32]) = some (2#32, 0x00400004#32) := by decide
theorem test_xor_same_register :
    afterStep 8#5 (boot1 8#5 0x80000000#32 [0x01084026#32]) = some (0#32, 0x00400004#32) := by decide
theorem test_ori_zero_extends :
    afterStep 9#5 (boot1 9#5 0xFFFF0000#32 [0x3529FFFF#32]) = some (0xFFFFFFFF#32, 0x00400004#32) := by decide
theorem test_ori_writes_register_zero :
    afterStep 0#5 (boot 16 [0x34000001#32]) = some (1#32, 0x00400004#32) := by decide
theorem test_lui : afterStep 8#5 (boot1 8#5 0xFFFFFFFF#32 [0x3C081234#32]) = some (0x12340000#32, 0x00400004#32) := by
  decide
theorem test_lui_zero : afterStep 8#5 (boot1 8#5 7#32 [0x3C080000#32]) = some (0#32, 0x00400004#32) := by decide

/-! ### The faults of a step (2.9) -/

theorem test_lw_unimplemented : marksAfterStep (boot 16 [0x8D280004#32]) =
    some (some (.unimplementedInstruction 0x8D280004#32 0x00400000#32), false, 0x00400004#32) := by decide
theorem test_beq_unimplemented : marksAfterStep (boot 16 [0x1109000C#32]) =
    some (some (.unimplementedInstruction 0x1109000C#32 0x00400000#32), false, 0x00400004#32) := by decide
theorem test_j_unimplemented : marksAfterStep (boot 16 [0x08100002#32]) =
    some (some (.unimplementedInstruction 0x08100002#32 0x00400000#32), false, 0x00400004#32) := by decide
theorem test_second_step_of_halted : marksAfterStep (stepOr (boot 16 [0x8D280004#32])) = none := by decide
theorem test_unmapped_fetch : marksAfterStep { boot 16 [] with pc := 0x00500000#32 } =
    some (some (.memoryUnknownAccess 0x00500000), false, 0x00500000#32) := by decide
theorem test_fetch_past_region : marksAfterStep (edgeState 2) =
    some (some (.memoryUnknownAccess 0x00400010), true, 0x0040000E#32) := by decide
theorem test_uninitialized_fetch : marksAfterStep State.reset = some (none, true, 0x00400004#32) := by decide

/-! ### Witnesses: concrete inputs that meet the hypotheses of each statement, clause by clause -/

/-- lui $t0, 0x1234 and ori $t0, $t0, 0x5678 (E1). -/
def bootE1 : State := boot 16 [0x3C081234#32, 0x35085678#32]

/-- The halted states of the two reasons. -/
def haltedState : State := stepOr (boot 16 [0x8D280004#32])

/-- The same visible state with other values in the registers nothing reads and in the mark. -/
def hiddenChanged : State := { bootE1 with hi := 1#32, lo := 2#32, uninitSeen := true }

theorem witness_LuiThenOriBuildsConstant :
    ∃ t u, exec (.lui 8#5 0x1234#16) State.reset = .next t ∧ exec (.ori 8#5 8#5 0x5678#16) t = .next u :=
  ⟨_, _, rfl, rfl⟩

/-- An executable word and an encode-only one. -/
theorem witness_StepRunsTheDecodedInstruction :
    (bootE1.halt = none ∧ peekWord bootE1.regions bootE1.pc.toNat = some 0x3C081234#32 ∧
      decodeWord 0x3C081234#32 = .ok (.lui 8#5 0x1234#16) ∧ (Instr.lui 8#5 0x1234#16).wf = true) ∧
    ((boot 16 [0x08100002#32]).halt = none ∧ peekWord (boot 16 [0x08100002#32]).regions 0x00400000 = some 0x08100002#32 ∧
      decodeWord 0x08100002#32 = .ok (.j 0x0100002#26)) := by decide

theorem witness_SuccessfulStepChangesExactly : ∃ t, step bootE1 = .next t ∧ t.halt = none := ⟨_, rfl, by decide⟩

/-- A step that succeeds, one on an unmapped byte, one on an unimplemented word. -/
theorem witness_FatalStepIffUnmappedOrUnimplemented :
    (∃ t, step bootE1 = .next t ∧ t.halt = none) ∧
    (∃ t, step (edgeState 3) = .next t ∧ peekWord (edgeState 3).regions (edgeState 3).pc.toNat = none) ∧
    (∃ t, step (boot 16 [0x8D280004#32]) = .next t ∧ engineDecode 0x8D280004#32 = none) :=
  ⟨⟨_, rfl, by decide⟩, ⟨_, rfl, by decide⟩, ⟨_, rfl, by decide⟩⟩

/-- The first unmapped byte at offset 0 and at offset 3. -/
theorem witness_FetchOfUnmappedByteHalts :
    ((edgeState 0).halt = none ∧ byteAt (edgeState 0).regions ((edgeState 0).pc.toNat + 0) = .unmapped) ∧
    ((edgeState 3).halt = none ∧ byteAt (edgeState 3).regions ((edgeState 3).pc.toNat + 3) = .unmapped ∧
      ∀ l, l < 3 → byteAt (edgeState 3).regions ((edgeState 3).pc.toNat + l) ≠ .unmapped) := by decide

theorem witness_UnimplementedWordHalts :
    (boot 16 [0xFFFFFFFF#32]).halt = none ∧ peekWord (boot 16 [0xFFFFFFFF#32]).regions 0x00400000 = some 0xFFFFFFFF#32 ∧
      engineDecode 0xFFFFFFFF#32 = none := by decide

theorem witness_HaltedEngineTakesNoStep :
    haltedState.halt = some (.unimplementedInstruction 0x8D280004#32 0x00400000#32) ∧
    (stepOr (edgeState 0)).halt = some (.memoryUnknownAccess 0x00400010) := by decide

theorem witness_UninitializedWordIsNoOperation :
    State.reset.halt = none ∧ ∀ j, j < 4 → byteAt State.reset.regions (State.reset.pc.toNat + j) = .uninitialized := by
  decide

theorem witness_StepKeepsHaltSound : HaltSound bootE1 ∧ ∃ t, step bootE1 = .next t := ⟨trivial, _, rfl⟩

/-- Both halted states of a run satisfy the invariant, so it is not met by running states alone. -/
theorem witness_HaltSound_of_halted : HaltSound haltedState ∧ HaltSound (stepOr (edgeState 0)) := by
  refine ⟨?_, ?_⟩
  · show peekWord haltedState.regions 0x00400000 = some 0x8D280004#32 ∧ engineDecode 0x8D280004#32 = none ∧
      haltedState.pc = 0x00400000#32 + Config.pcStep
    decide
  · show byteAt (stepOr (edgeState 0)).regions 0x00400010 = .unmapped ∧ (stepOr (edgeState 0)).pc.toNat ≤ 0x00400010 ∧
      0x00400010 < (stepOr (edgeState 0)).pc.toNat + 4 ∧
      ∀ c, (stepOr (edgeState 0)).pc.toNat ≤ c → c < 0x00400010 → byteAt (stepOr (edgeState 0)).regions c ≠ .unmapped
    refine ⟨by decide, by decide, by decide, fun c h1 h2 => ?_⟩
    have : (stepOr (edgeState 0)).pc.toNat = 0x00400010 := by decide
    omega

theorem witness_StepKeepsPcAlignment : ∃ t, step bootE1 = .next t ∧ t.pc.toNat % 4 = 0 := ⟨_, rfl, by decide⟩

theorem witness_MemoryStaysCanonical :
    Memory.wf bootE1.regions = true ∧ (∃ t, step bootE1 = .next t) ∧ ([1#8, 0#8] : List Byte).length ≤ 2 :=
  ⟨by decide, ⟨_, rfl⟩, by decide⟩

theorem witness_SuccessfulRunIsStraightLine : ∃ t, SuccessfulRun 2 bootE1 t := ⟨stepOr (stepOr bootE1), rfl, by decide⟩

theorem witness_RunPastMappedMemoryFails :
    (boot 8 []).pc.toNat + 4 * 2 < 2 ^ 32 ∧ byteAt (boot 8 []).regions ((boot 8 []).pc.toNat + 4 * 2) = .unmapped ∧
      2 < 3 := by decide

theorem witness_UnreadStateHasNoInfluence :
    AgreeOnVisible bootE1 hiddenChanged ∧ bootE1 ≠ hiddenChanged ∧ (∃ t, step bootE1 = .next t) ∧
      ∃ r, step haltedState = .fault r :=
  ⟨⟨rfl, rfl, rfl, rfl⟩, by decide, ⟨_, rfl⟩, ⟨_, rfl⟩⟩

/-- A launch that is granted and one that is not: its regions overlap in one byte. -/
theorem witness_LaunchGrantedIffRegionsSound :
    launch Params.named = some State.reset ∧
    launch { Params.named with regionsInit := [⟨0x00400000#32, 16, 0, []⟩, ⟨0x0040000F#32, 16, 0, []⟩] } = none := by
  decide

/-- Two overlapping regions: the first in insertion order answers. -/
theorem witness_MapFindsFirstContainingRegion :
    mapAddr [⟨0x10#32, 4, 0, []⟩, ⟨0x0#32, 32, 0, []⟩] 0x13 = some (0, 3) ∧
    mapAddr [⟨0x10#32, 4, 0, []⟩, ⟨0x0#32, 32, 0, []⟩] 0x14 = some (1, 20) := by decide

/-- Unmapped; the last byte of the backing; the first past it. -/
theorem witness_ReadByteFollowsThreeStates :
    mapAddr mem26.regions 0x00400010 = none ∧
    (mapAddr mem26.regions 0x00400005 = some (0, 5) ∧ mem26.regions[0]? = some regA ∧ 5 < regA.backing.length) ∧
    (mapAddr mem26.regions 0x00400006 = some (0, 6) ∧ regA.backing.length ≤ 6) := by decide

theorem witness_MemReadComposesBytes :
    ∀ j, j < Width.bytes .word →
      peekByte mem26.regions ((0x00400004#32).toNat + j) = some (([0xFF, 0, 0, 0] : List Byte).getD j 0#8) := by decide

/-- The first unmapped byte at offset 0 and at offset 3 of a word read. -/
theorem witness_MemReadFailsAtFirstUnmappedByte :
    (0 < Width.bytes .byte ∧ byteAt mem26.regions ((0x00400010#32).toNat + 0) = .unmapped) ∧
    (3 < Width.bytes .word ∧ byteAt mem26.regions ((0x0040000D#32).toNat + 3) = .unmapped ∧
      ∀ l, l < 3 → byteAt mem26.regions ((0x0040000D#32).toNat + l) ≠ .unmapped) := by decide

theorem witness_NoReadPassesTopOfAddressSpace : 2 ^ 32 < (0xFFFFFFFD#32).toNat + Width.bytes .word := by decide

/-- A growing write: an address in the gap and one before it, one of another region. -/
theorem witness_ByteWriteIsReadBackAndFramed :
    Memory.wf mem26.regions = true ∧ mapAddr mem26.regions (0x00400009#32).toNat = some (0, 9) ∧
      mem26.regions[0]? = some regA ∧
      (mapAddr mem26.regions 0x00400006 = some (0, 6) ∧ regA.len ≤ 6 ∧ 6 < 9) ∧
      (mapAddr mem26.regions 0x00400005 = some (0, 5) ∧ 5 < regA.len) ∧
      mapAddr mem26.regions 0x10010000 = some (1, 0) := by decide

/-- The last byte of the backing, and the last of the region. -/
theorem witness_RegionWriteGrowsBacking : regA.wf = true ∧ 5 < regA.backing.length ∧ 15 < regA.maxLen := by decide

theorem witness_UnmappedHostAccessHasNoEffect :
    byteAt mem26.regions (0x00400010#32).toNat = .unmapped ∧
    (3 < Width.bytes .word ∧ byteAt mem26.regions ((0x0040000D#32).toNat + 3) = .unmapped) := by decide

theorem witness_RegionsAreAppendOnly :
    mem26.regions[1]? = some regB ∧ mapAddr mem26.regions 0x00400001 = some (0, 1) ∧
    byteAt mem26.regions 0x00400001 = .initialized 0x40#8 ∧
    (∀ i v, HostAction.writeMem 0x00400001#32 1#8 ≠ .writeReg i v) ∧
    Memory.disjoint mem26.regions = true := by
  refine ⟨by decide, by decide, by decide, fun i v h => ?_, by decide⟩
  cases h

/-- The premise of a registration: met by a region that begins where another ends, not by one a byte lower. Its first
and its last address. -/
theorem witness_RegionsAreAppendOnly_register :
    hostActionOk (.register 0x00400010#32 4 [1#8]) mem26 = true ∧
    hostActionOk (.register 0x0040000F#32 4 [1#8]) mem26 = false ∧
    mapAddr (hostApply (.register 0x00400010#32 4 [1#8]) mem26).regions 0x00400010 = some (2, 0) ∧
    mapAddr (hostApply (.register 0x00400010#32 4 [1#8]) mem26).regions 0x00400013 = some (2, 3) := by decide

theorem witness_LoadedProgramIsInPlace :
    Memory.wf State.reset.regions = true ∧ loadRoomOk 0x00400000#32 8 State.reset = true ∧
      ∃ t, loadObject 0x00400000#32 (objectStream [0x3C081234#32, 0x35085678#32]) State.reset = .done () t :=
  ⟨by decide, by decide, _, rfl⟩

theorem witness_DecodeOfEncodeIsIdentity : (Instr.beq 31#5 31#5 0xFFFF#16).wf = true := by decide

/-- A word with its ignored field zero and one with it set. -/
theorem witness_EncodeOfDecodeIsCanonicalWord :
    (decodeWord 0x01095020#32 = .ok (.add 10#5 8#5 9#5) ∧ encode (.add 10#5 8#5 9#5) = 0x01095020#32) ∧
    (decodeWord 0x010957E0#32 = .ok (.add 10#5 8#5 9#5) ∧ encode (.add 10#5 8#5 9#5) ≠ 0x010957E0#32) ∧
    (0x010957E0#32 &&& ~~~ignoredBits (.add 10#5 8#5 9#5) = 0x01095020#32 &&& ~~~ignoredBits (.add 10#5 8#5 9#5)) := by
  decide

/-- Both classes of word, an ignored field set in the first. -/
theorem witness_ExecutableWordsAreSevenSelections :
    engineDecode 0x3FE81234#32 = some (.lui 8#5 0x1234#16) ∧ engineDecode 0x00000021#32 = none := by decide

/-- A row that executes and one that does not. -/
theorem witness_DecoderAgreesWithOpcodeTable :
    (∃ r ∈ opcodeTable, r.matchesWord 0x3C081234#32 = true ∧ r.executes = true) ∧
    (∃ r ∈ opcodeTable, r.matchesWord 0x08100002#32 = true ∧ r.executes = false) := by decide

theorem witness_MaskIsStrictAndIdempotent :
    mask 31#32 5 = .ok 31#32 ∧ 2 ^ 5 ≤ (32#32).toNat ∧ (31#32).toNat < 2 ^ 5 := by decide

theorem witness_PackRUnpackRRoundTrip :
    (31#32).toNat < 32 ∧ (63#32).toNat < 64 ∧ opcodeOf 0x03FFFFFF#32 = 0#6 := by decide

theorem witness_PackIUnpackIRoundTrip : (63#32).toNat < 64 ∧ (31#32).toNat < 32 := by decide

theorem witness_PackJRecoversAddressField : (63#32).toNat < 64 := by decide

theorem witness_PackRReportsFirstOverflow :
    32 ≤ (32#32).toNat ∧ (31#32).toNat < 32 ∧ 64 ≤ (64#32).toNat ∧ (63#32).toNat < 64 := by decide

theorem witness_ObjectStreamIsFourBytesPerWord :
    ([0x3C081234#32, 0x35085678#32] : List Word)[1]? = some 0x35085678#32 := by decide

theorem witness_RegisterNamingImageAndInjectivity :
    regindex ('$' :: ['r', 'a']) = .ok 31#5 ∧ (25#5 ≠ (26#5 : Idx5) ∧ 28#5 ≠ (27#5 : Idx5)) := by
  decide

theorem witness_RegisterTokenConditions :
    (isBareDecimal ['3', '1'] = true ∧ decimalValue ['3', '1'] ≤ 31) ∧
    (isBareDecimal ['3', '2'] = true ∧ 31 < decimalValue ['3', '2']) ∧
    (∃ e, regindex ['$'] = .error e) := ⟨by decide, by decide, _, rfl⟩

theorem witness_ArityCheckedExactly :
    (∃ e, lookupMnemonic minimumCatalog ['f'] = .error e) ∧
    lookupMnemonic minimumCatalog ['l', 'w'] = .ok (.i 0x23#6 .rtImmRs) ∧
    arityOk (.i 0x23#6 .rtImmRs) 1 = false ∧ arityOk (.i 0x23#6 .rtImmRs) 2 = true ∧
    arityOk (.i 0x23#6 .rtImmRs) 3 = true ∧ arityOk (.i 0x23#6 .rtImmRs) 4 = false :=
  ⟨⟨_, rfl⟩, by decide⟩

theorem witness_ZeroOffsetFormDefaultsImmediate :
    front.immediate ['0'] = 0#16 ∧ (regindex t0 = .ok 8#5 ∧ regindex t1 = .ok 9#5) ∧
    (([t0] : List Token).length ≠ 2 ∧ ([t0] : List Token).length ≠ 3) ∧
    (([t0, t0, t0, t0] : List Token).length ≠ 2 ∧ ([t0, t0, t0, t0] : List Token).length ≠ 3) ∧
    (arityOk (.j 2#6) 1 = true ∧ ∀ o, Descriptor.j 2#6 ≠ .i o .rtImmRs) := by
  refine ⟨by decide, by decide, by decide, by decide, by decide, fun o h => ?_⟩
  cases h

theorem witness_AssembledStatementIsEncodedInstruction :
    regindex t0 = .ok 8#5 ∧ regindex t1 = .ok 9#5 ∧ regindex t2 = .ok 10#5 ∧ front.number ['3', '1'] < 32 ∧
    32 ≤ front.number ['3', '2'] := by decide

/-- Distances 32767 and -32768 at the edges of the branch's range, 32768 past it; a label that is not declared. -/
theorem witness_BranchAndJumpTargets :
    regindex t0 = .ok 8#5 ∧ regindex t1 = .ok 9#5 ∧
    ([(['L'], 0x00407FFF#32)] : LabelTable).lookup ['L'] = some 0x00407FFF#32 ∧
    ((0x00407FFF#32).toNat - (0x00400000#32).toNat : Int) = 32767 ∧
    ((0x00400000#32).toNat - (0x00408000#32).toNat : Int) = -32768 ∧
    (32767 : Int) < ((0x00408000#32).toNat - (0x00400000#32).toNat : Int) ∧
    ([(['L'], 0x00407FFF#32)] : LabelTable).lookup ['M'] = none := by decide

theorem witness_LabelAddressCountsInstructions :
    ∃ labels, pass1 [] 0 0x00400000#32 ([.instr ['j'] [['L']]] ++ .label ['L'] :: []) = .ok labels := ⟨_, rfl⟩

theorem witness_AssembledProgramIsComplete :
    (∃ bs, assemble front minimumCatalog 0x00400000#32 treeA2 = .ok bs) ∧
    .directive ['.', 't', 'e', 'x', 't'] [] ∈ flattenTree treeA2 := ⟨⟨_, rfl⟩, by simp [treeA2, flattenTree, flattenTree.flattenTrees]⟩

/-- The parameters with a text region of `n` bytes and another that adjoins it. -/
def tight (n : Nat) : Params :=
  { Params.named with
    regionsInit := [⟨0x00400000#32, n, 0, []⟩, ⟨BitVec.ofNat 32 (0x00400000 + n), 16, 0, []⟩] }

/-- R303: A2 is 20 bytes long; a text region of 20 bytes takes it, one of 19 does not, though another adjoins it. -/
theorem test_boot_needs_room_in_one_region :
    (bootWith (tight 20) front minimumCatalog treeA2).isSome = true ∧
    (bootWith (tight 19) front minimumCatalog treeA2).isSome = false := ⟨rfl, rfl⟩

/-- A2 booted with the named parameters; a label before its first instruction; its first step. -/
theorem witness_ProgramStartsAtTextBase :
    (∃ s, bootWith Params.named front minimumCatalog treeA2 = some s ∧
      afterStep 8#5 s = some (3#32, 0x00400004#32)) ∧
    flattenTree treeA2 = [.directive ['.', 't', 'e', 'x', 't'] []] ++ .label ['S'] :: (flattenTree treeA2).drop 2 ∧
    instrCount [.directive ['.', 't', 'e', 'x', 't'] []] = 0 ∧
    ∃ labels, pass1 [] 0 Params.named.textBase (flattenTree treeA2) = .ok labels :=
  ⟨⟨_, rfl, by decide⟩, rfl, rfl, _, rfl⟩

end Sys2Proof.Tests
end

/-! The statements of 10_state.md: register 0, the halt mark, alignment of `pc`, canonical memory, what no step reads,
and the append-only region list. -/

namespace Sys2Proof.Machine

/-! ### Register writes and the executed operations (R22, R214) -/

/-- The register file after one write, at every index (R22). -/
theorem readReg_writeReg (i k : Idx5) (v : Word) (s : State) :
    readReg k (writeReg i v s) = if k = i then v else readReg k s := by
  split <;> rename_i h
  · rw [h, readReg_writeReg_same]
  · exact readReg_writeReg_other s v h

/-- Sixteen zero bits appended are a shift by sixteen (R96). -/
theorem upper16_eq_shiftLeft (imm : Half) : upper16 imm = imm.setWidth 32 <<< 16 := by
  refine BitVec.eq_of_getLsbD_eq fun i hi => ?_
  simp only [upper16, BitVec.getLsbD_append, BitVec.getLsbD_shiftLeft, BitVec.getLsbD_setWidth]
  by_cases h : i < 16
  · simp [h]
  · simp [h, hi, show i - 16 < 32 by omega]

section Operations

variable (rd rs rt shamt : Idx5) (imm : Half) (s : State)

theorem exec_sll : exec (.sll rd rt shamt) s = .next (writeReg rd (readReg rt s <<< shamt.toNat) s) := rfl
theorem exec_srl : exec (.srl rd rt shamt) s = .next (writeReg rd (readReg rt s >>> shamt.toNat) s) := rfl
theorem exec_add : exec (.add rd rs rt) s = .next (writeReg rd (readReg rs s + readReg rt s) s) := rfl
theorem exec_sub : exec (.sub rd rs rt) s = .next (writeReg rd (readReg rs s - readReg rt s) s) := rfl
theorem exec_xor : exec (.xor rd rs rt) s = .next (writeReg rd (readReg rs s ^^^ readReg rt s) s) := rfl
theorem exec_ori : exec (.ori rt rs imm) s = .next (writeReg rt (readReg rs s ||| imm.setWidth 32) s) := rfl
theorem exec_lui : exec (.lui rt imm) s = .next (writeReg rt (imm.setWidth 32 <<< 16) s) := by
  rw [← upper16_eq_shiftLeft]; rfl

end Operations

/-- An executable instruction writes one register with a value the general registers alone determine. -/
theorem exec_eq_writeReg_of_gpr {i : Instr} (hi : i.executes = true) :
    ∃ (d : Idx5) (f : Vector Word 32 → Word), ∀ s, exec i s = .next (writeReg d (f s.gpr) s) := by
  cases i with
  | sll rd rt shamt => exact ⟨rd, fun x => x[rt.toNat]'rt.isLt <<< shamt.toNat, exec_sll rd rt shamt⟩
  | srl rd rt shamt => exact ⟨rd, fun x => x[rt.toNat]'rt.isLt >>> shamt.toNat, exec_srl rd rt shamt⟩
  | add rd rs rt => exact ⟨rd, fun x => x[rs.toNat]'rs.isLt + x[rt.toNat]'rt.isLt, exec_add rd rs rt⟩
  | sub rd rs rt => exact ⟨rd, fun x => x[rs.toNat]'rs.isLt - x[rt.toNat]'rt.isLt, exec_sub rd rs rt⟩
  | xor rd rs rt => exact ⟨rd, fun x => x[rs.toNat]'rs.isLt ^^^ x[rt.toNat]'rt.isLt, exec_xor rd rs rt⟩
  | ori rt rs imm => exact ⟨rt, fun x => x[rs.toNat]'rs.isLt ||| imm.setWidth 32, exec_ori rs rt imm⟩
  | lui rt imm => exact ⟨rt, fun _ => imm.setWidth 32 <<< 16, exec_lui rt imm⟩
  | lw rt imm rs => cases hi
  | beq rs rt imm => cases hi
  | j target => cases hi

/-! ### What a step that answers a next state did -/

/-- The state a step leaves when byte `j` of the word at `pc` is the first unmapped one (R216). -/
def haltedOnFetch (j : Nat) (s : State) : State :=
  markHalt (.memoryUnknownAccess (s.pc.toNat + j))
    { s with uninitSeen := s.uninitSeen || anyUninit s.regions s.pc.toNat j }

theorem step_of_first_unmapped {s : State} {j : Nat} (hs : s.halt = none) (hj : j < 4)
    (hu : byteAt s.regions (s.pc.toNat + j) = .unmapped)
    (hm : ∀ l, l < j → byteAt s.regions (s.pc.toNat + l) ≠ .unmapped) : step s = .next (haltedOnFetch j s) :=
  step_unknown hs (fetch_first_unmapped hj hu hm)

theorem step_of_not_selected {s : State} {w : Word} (hs : s.halt = none)
    (hw : peekWord s.regions s.pc.toNat = some w) (hd : engineDecode w = none) :
    step s = .next (markHalt (.unimplementedInstruction w s.pc) (afterFetch s)) := by
  rw [step_unimplemented hs (fetch_of_peekWord hw) hd, afterFetch_pc, BitVec.add_sub_cancel]

theorem step_of_selected {s : State} {w : Word} {i : Instr} (hs : s.halt = none)
    (hw : peekWord s.regions s.pc.toNat = some w) (hd : engineDecode w = some i) : step s = exec i (afterFetch s) :=
  step_exec hs (fetch_of_peekWord hw) hd

/-- The inversion of a step (R219): it ran an engine that was not halted, and it halted at the first unmapped byte of
the word at `pc`, halted on a word the engine's decode does not select, or wrote one register after the fetch. -/
theorem step_next_cases {s t : State} (h : step s = .next t) :
    s.halt = none ∧
    ((∃ j, j < 4 ∧ byteAt s.regions (s.pc.toNat + j) = .unmapped ∧
        (∀ l, l < j → byteAt s.regions (s.pc.toNat + l) ≠ .unmapped) ∧ t = haltedOnFetch j s) ∨
      (∃ w, peekWord s.regions s.pc.toNat = some w ∧ engineDecode w = none ∧
        t = markHalt (.unimplementedInstruction w s.pc) (afterFetch s)) ∨
      (∃ w i d v, peekWord s.regions s.pc.toNat = some w ∧ engineDecode w = some i ∧
        exec i (afterFetch s) = .next t ∧ t = writeReg d v (afterFetch s))) := by
  obtain ⟨r, -, hf⟩ | ⟨hs, j, hj, hu, hm, hn⟩ | ⟨hs, w, hw, hd, hn⟩ | ⟨hs, w, i, d, v, hw, hd, hx, hn⟩ := step_cases s
  · rw [h] at hf; cases hf
  · rw [h] at hn; cases hn; exact ⟨hs, .inl ⟨j, hj, hu, hm, rfl⟩⟩
  · rw [h] at hn; cases hn; exact ⟨hs, .inr (.inl ⟨w, hw, hd, rfl⟩)⟩
  · rw [h] at hx hn; cases hn; exact ⟨hs, .inr (.inr ⟨w, i, d, v, hw, hd, hx.symm, rfl⟩)⟩

/-- No step writes memory (R51). -/
theorem step_regions {s t : State} (h : step s = .next t) : t.regions = s.regions := by
  obtain ⟨-, ⟨j, -, -, -, rfl⟩ | ⟨w, -, -, rfl⟩ | ⟨w, i, d, v, -, -, -, rfl⟩⟩ := step_next_cases h <;> rfl

/-- The only update of `pc` is the fetch's (R26). -/
theorem step_pc {s t : State} (h : step s = .next t) : t.pc = s.pc ∨ t.pc = s.pc + Config.pcStep := by
  obtain ⟨-, ⟨j, -, -, -, rfl⟩ | ⟨w, -, -, rfl⟩ | ⟨w, i, d, v, -, -, -, rfl⟩⟩ := step_next_cases h
  · exact .inl rfl
  · exact .inr rfl
  · exact .inr rfl

/-- A step that faults met a halted engine (R211). -/
theorem halt_of_step_fault {s : State} {r : Fault} (h : step s = .fault r) :
    ∃ q, s.halt = some q ∧ r = .halted q := by
  obtain ⟨q, hq, hf⟩ | ⟨-, j, -, -, -, hn⟩ | ⟨-, w, -, -, hn⟩ | ⟨-, w, i, d, v, -, -, -, hn⟩ := step_cases s
  · rw [h] at hf; cases hf; exact ⟨q, hq, rfl⟩
  · rw [h] at hn; cases hn
  · rw [h] at hn; cases hn
  · rw [h] at hn; cases hn

/-! ### The halt mark (R35, R216) -/

theorem haltSound_of_running {s : State} (h : s.halt = none) : HaltSound s := by
  simp [HaltSound, h]

/-- The mark of a fetch that met its first unmapped byte is sound. -/
theorem haltSound_haltedOnFetch {s : State} {j : Nat} (hj : j < 4)
    (hu : byteAt s.regions (s.pc.toNat + j) = .unmapped)
    (hm : ∀ l, l < j → byteAt s.regions (s.pc.toNat + l) ≠ .unmapped) : HaltSound (haltedOnFetch j s) := by
  refine ⟨hu, Nat.le_add_right _ _, Nat.add_lt_add_left hj _, fun c hlo hhi => ?_⟩
  have hc : s.pc.toNat ≤ c := hlo
  have := hm (c - s.pc.toNat) (by omega)
  rwa [Nat.add_sub_cancel' hc] at this

/-- The mark of a fetched word that the engine's decode does not select is sound. -/
theorem haltSound_unimplemented {s : State} {w : Word} (hw : peekWord s.regions s.pc.toNat = some w)
    (hd : engineDecode w = none) : HaltSound (markHalt (.unimplementedInstruction w s.pc) (afterFetch s)) :=
  ⟨hw, hd, rfl⟩

/-- Settles O19: each of the three ends of a step leaves a sound mark, and a state that steps had none
before, so what its mark said is not needed. -/
theorem stepKeepsHaltSound : Obligations.StepKeepsHaltSound := by
  intro s t _ h
  obtain ⟨hs, ⟨j, hj, hu, hm, rfl⟩ | ⟨w, hw, hd, rfl⟩ | ⟨w, i, d, v, -, -, -, rfl⟩⟩ := step_next_cases h
  · exact haltSound_haltedOnFetch hj hu hm
  · exact haltSound_unimplemented hw hd
  · exact haltSound_of_running hs

/-- Settles O20: `halt` is `none` at reset (R38). -/
theorem resetIsHaltSound : Obligations.ResetIsHaltSound := fun p => haltSound_of_running (resetWith_halt p)

/-! ### Alignment of `pc` (R27) -/

/-- Advancing by 4 modulo 2^32 keeps the residue modulo 4 (R26). -/
theorem toNat_add_pcStep_mod_four (a : Word) : (a + Config.pcStep).toNat % 4 = a.toNat % 4 := by
  have : (a + Config.pcStep).toNat = (a.toNat + 4) % 2 ^ 32 := BitVec.toNat_add a Config.pcStep
  omega

/-- Settles O21: `pc` stays or advances by 4. -/
theorem stepKeepsPcAlignment : Obligations.StepKeepsPcAlignment := by
  refine ⟨fun s t h => ?_, fun p => Iff.rfl⟩
  unfold PcAligned
  rcases step_pc h with hp | hp
  · rw [hp]
  · rw [hp, toNat_add_pcStep_mod_four]

/-! ### Noninterference (R31, R32, R36) -/

theorem AgreeOnVisible.afterFetch {s t : State} (h : AgreeOnVisible s t) :
    AgreeOnVisible (afterFetch s) (afterFetch t) := by
  obtain ⟨hg, hp, hr, hh⟩ := h
  exact ⟨hg, congrArg (· + Config.pcStep) hp, hr, hh⟩

theorem AgreeOnVisible.markHalt {s t : State} (h : AgreeOnVisible s t) (r : HaltReason) :
    AgreeOnVisible (markHalt r s) (markHalt r t) := by
  obtain ⟨hg, hp, hr, -⟩ := h
  exact ⟨hg, hp, hr, rfl⟩

theorem AgreeOnVisible.writeReg {s t : State} (h : AgreeOnVisible s t) (d : Idx5) (v : Word) :
    AgreeOnVisible (writeReg d v s) (writeReg d v t) := by
  obtain ⟨hg, hp, hr, hh⟩ := h
  exact ⟨congrArg (·.set d.toNat v d.isLt) hg, hp, hr, hh⟩

theorem AgreeOnVisible.haltedOnFetch {s t : State} (h : AgreeOnVisible s t) (j : Nat) :
    AgreeOnVisible (haltedOnFetch j s) (haltedOnFetch j t) := by
  obtain ⟨hg, hp, hr, -⟩ := h
  exact ⟨hg, hp, hr, congrArg (fun a : Word => some (HaltReason.memoryUnknownAccess (a.toNat + j))) hp⟩

/-- An executable instruction takes states that agree to states that agree. -/
theorem AgreeOnVisible.exec {s t s' : State} {i : Instr} (h : AgreeOnVisible s t) (hi : i.executes = true)
    (hx : exec i s = .next s') : ∃ t', exec i t = .next t' ∧ AgreeOnVisible s' t' := by
  obtain ⟨d, f, hf⟩ := exec_eq_writeReg_of_gpr hi
  have hg : s.gpr = t.gpr := h.1
  rw [hf, hg] at hx
  cases hx
  exact ⟨_, hf t, h.writeReg d (f t.gpr)⟩

/-- Settles O26: each end of a step is decided by `pc`, memory and the general registers. -/
theorem unreadStateHasNoInfluence : Obligations.UnreadStateHasNoInfluence := by
  intro s t h
  have hv := h
  obtain ⟨-, hp, hr, hh⟩ := hv
  refine ⟨fun s' hs => ?_, fun r hf => ?_⟩
  · obtain ⟨hn, ⟨j, hj, hu, hm, rfl⟩ | ⟨w, hw, hd, rfl⟩ | ⟨w, i, d, v, hw, hd, hx, -⟩⟩ := step_next_cases hs
    · rw [hr, hp] at hu hm
      exact ⟨_, step_of_first_unmapped (hh ▸ hn) hj hu hm, h.haltedOnFetch j⟩
    · rw [hr, hp] at hw
      refine ⟨_, step_of_not_selected (hh ▸ hn) hw hd, ?_⟩
      rw [hp]
      exact h.afterFetch.markHalt _
    · rw [hr, hp] at hw
      obtain ⟨t', ht, ha⟩ := h.afterFetch.exec (engineDecode_executes hd) hx
      exact ⟨t', (step_of_selected (hh ▸ hn) hw hd).trans ht, ha⟩
  · obtain ⟨q, hq, rfl⟩ := halt_of_step_fault hf
    exact step_halted (hh ▸ hq)

/-! ### Host actions: what each does to the state (R23, R303, R304, R305) -/

@[simp] theorem hostApply_readMem (a : Word) (n : Width) (s : State) :
    hostApply (.readMem a n) s = (memRead a n s).stateOr s := rfl

@[simp] theorem hostApply_writeMem (a : Word) (v : Byte) (s : State) :
    hostApply (.writeMem a v) s = (writeByte a.toNat v s).stateOr s := rfl

/-- A host read changes the mark and nothing else (R305). -/
theorem hostApply_readMem_only_mark (a : Word) (n : Width) (s : State) :
    ∃ u, hostApply (.readMem a n) s = { s with uninitSeen := u } := by
  have hf := readBytes_frame n.bytes a.toNat s
  rw [hostApply_readMem, memRead]
  cases hr : readBytes n.bytes a.toNat s with
  | done bs t => rw [hr] at hf; exact ⟨t.uninitSeen, hf⟩
  | unknown b t => exact ⟨s.uninitSeen, rfl⟩

/-- A host byte write does nothing, or rewrites the backing of the region the address maps to (R62). -/
theorem hostApply_writeMem_cases (a : Word) (v : Byte) (s : State) :
    hostApply (.writeMem a v) s = s ∨ ∃ i k, mapAddr s.regions a.toNat = some (i, k) ∧
      hostApply (.writeMem a v) s = { s with regions := s.regions.modify i (fun r => r.write k v) } := by
  rw [hostApply_writeMem]
  obtain ⟨-, hw⟩ | ⟨i, k, hm, hw⟩ := writeByte_cases a.toNat v s
  · exact .inl (by rw [hw]; rfl)
  · exact .inr ⟨i, k, hm, by rw [hw]; rfl⟩

/-! ### Canonical memory (log entry 5) -/

theorem hostApply_writeMem_wf {a : Word} {v : Byte} {s : State} (hs : Memory.wf s.regions = true) :
    Memory.wf (hostApply (.writeMem a v) s).regions = true := by
  rw [hostApply_writeMem]
  cases hw : writeByte a.toNat v s with
  | done x t => exact writeByte_wf hs hw
  | unknown b t => exact hs

/-- Byte writes keep the canonical form whether all of them succeed or not (log entry 16). -/
theorem writeBytes_state_wf {a : Nat} {bs : List Byte} {s : State} (hs : Memory.wf s.regions = true) :
    Memory.wf (writeBytes a bs s).state.regions = true := by
  induction bs generalizing a s with
  | nil => exact hs
  | cons b bs ih =>
    unfold writeBytes
    obtain ⟨-, hw⟩ | ⟨i, k, -, hw⟩ := writeByte_cases a b s
    · rw [hw]; exact hs
    · have ht := ih (a := a + 1) (writeByte_wf hs hw)
      rw [hw]; exact ht

/-- Settles O22: a step and a host read leave memory alone, a byte write and a registration keep its form. -/
theorem memoryStaysCanonical : Obligations.MemoryStaysCanonical := by
  refine ⟨fun s t hs h => ?_, fun a n s hs => ?_, fun a v s hs => hostApply_writeMem_wf hs, fun i v s hs => hs,
    fun b m bs s hb hs => registerRegion_wf hs (Region.ofBytes_wf hb), fun b bs s hs => writeBytes_state_wf hs⟩
  · rw [MemoryCanonical, step_regions h]; exact hs
  · obtain ⟨u, hu⟩ := hostApply_readMem_only_mark a n s
    rw [hu]; exact hs

/-- Settles O23 by the law on the named parameters' one empty region. -/
theorem resetMemoryIsCanonical : Obligations.ResetMemoryIsCanonical := reset_wf

/-! ### Regions are append-only (R29, R304, R305) -/

/-- A memory extends another (R29): every region keeps its index, base and maximum length and loses no backing, and
every address keeps its region and offset. -/
structure Memory.Extends (m m' : Memory) : Prop where
  region : ∀ (i : Nat) (r : Region), m[i]? = some r →
    ∃ q : Region, m'[i]? = some q ∧ q.base = r.base ∧ q.maxLen = r.maxLen ∧ r.len ≤ q.len
  map : ∀ (a : Nat) (p : Nat × Nat), mapAddr m a = some p → mapAddr m' a = some p

theorem Memory.extends_refl (m : Memory) : Memory.Extends m m :=
  ⟨fun _ r hr => ⟨r, hr, rfl, rfl, le_rfl⟩, fun _ _ h => h⟩

theorem Memory.extends_modify_write (m : Memory) (i k : Nat) (v : Byte) :
    Memory.Extends m (m.modify i (fun r => r.write k v)) := by
  refine ⟨fun j r hr => ?_, fun a p h => ?_⟩
  · rw [List.getElem?_modify, hr]
    by_cases hij : i = j
    · exact ⟨r.write k v, by simp [hij], rfl, rfl, Nat.le_max_left _ _⟩
    · exact ⟨r, by simp [hij], rfl, rfl, le_rfl⟩
  · rw [mapAddr_modify m i a (fun r => r.write k v) fun _ => ⟨rfl, rfl⟩]; exact h

theorem Memory.extends_append (m : Memory) (q : Region) : Memory.Extends m (m ++ [q]) :=
  ⟨fun _ r hr => ⟨r, (List.getElem?_append_left (List.getElem?_eq_some_iff.1 hr).1).trans hr, rfl, rfl, le_rfl⟩,
    fun _ _ h => mapAddr_append h⟩

/-- A byte is initialized when its address maps to an offset inside the backing (R52). -/
theorem byteAt_initialized_iff {m : Memory} {a : Nat} : (∃ b, byteAt m a = .initialized b) ↔
    ∃ i k r, mapAddr m a = some (i, k) ∧ m[i]? = some r ∧ k < r.len := by
  unfold byteAt
  cases hm : mapAddr m a with
  | none => simp
  | some p =>
    obtain ⟨i, k⟩ := p
    obtain ⟨r, hr, -⟩ := mapAddr_spec hm
    by_cases hk : k < r.len <;> simp [regionAt_eq hr, Region.byteAt, hr, hk]

/-- What is initialized stays initialized when memory is extended. -/
theorem Memory.Extends.initialized {m m' : Memory} (h : Memory.Extends m m') {a : Nat} {b : Byte}
    (hb : byteAt m a = .initialized b) : ∃ c, byteAt m' a = .initialized c := by
  obtain ⟨i, k, r, hm, hr, hk⟩ := byteAt_initialized_iff.1 ⟨b, hb⟩
  obtain ⟨q, hq, -, -, hl⟩ := h.region i r hr
  exact byteAt_initialized_iff.2 ⟨i, k, q, h.map _ _ hm, hq, hk.trans_le hl⟩

/-- Every host action extends memory. -/
theorem hostApply_extends (x : HostAction) (s : State) : Memory.Extends s.regions (hostApply x s).regions := by
  cases x with
  | readMem a n =>
    obtain ⟨u, hu⟩ := hostApply_readMem_only_mark a n s
    rw [hu]; exact Memory.extends_refl _
  | writeMem a v =>
    obtain hw | ⟨i, k, -, hw⟩ := hostApply_writeMem_cases a v s
    · rw [hw]; exact Memory.extends_refl _
    · rw [hw]; exact Memory.extends_modify_write _ i k v
  | writeReg i v => exact Memory.extends_refl _
  | register b m bs => exact Memory.extends_append _ _

/-- No host action changes `pc`, `halt`, `f`, `hi` or `lo` (log entry 11). -/
theorem hostApply_frame (x : HostAction) (s : State) :
    (hostApply x s).pc = s.pc ∧ (hostApply x s).halt = s.halt ∧ (hostApply x s).fpr = s.fpr ∧
      (hostApply x s).hi = s.hi ∧ (hostApply x s).lo = s.lo := by
  cases x with
  | readMem a n =>
    obtain ⟨u, hu⟩ := hostApply_readMem_only_mark a n s
    rw [hu]; exact ⟨rfl, rfl, rfl, rfl, rfl⟩
  | writeMem a v =>
    obtain hw | ⟨i, k, -, hw⟩ := hostApply_writeMem_cases a v s <;> (rw [hw]; exact ⟨rfl, rfl, rfl, rfl, rfl⟩)
  | writeReg i v => exact ⟨rfl, rfl, rfl, rfl, rfl⟩
  | register b m bs => exact ⟨rfl, rfl, rfl, rfl, rfl⟩

/-- Only a register write changes a register (R23). -/
theorem readReg_hostApply {x : HostAction} (hx : ∀ i v, x ≠ .writeReg i v) (s : State) (k : Idx5) :
    readReg k (hostApply x s) = readReg k s := by
  cases x with
  | readMem a n =>
    obtain ⟨u, hu⟩ := hostApply_readMem_only_mark a n s
    rw [hu]; rfl
  | writeMem a v =>
    obtain hw | ⟨i, l, -, hw⟩ := hostApply_writeMem_cases a v s
    · rw [hw]
    · rw [hw]; rfl
  | writeReg i v => exact absurd rfl (hx i v)
  | register b m bs => rfl

/-- What R304's premise says of a registration. -/
theorem hostActionOk_register {b : Word} {m : Nat} {bs : List Byte} {s : State} :
    hostActionOk (.register b m bs) s = true ↔ (Region.ofBytes b m bs).wf = true ∧
      s.regions.all (fun q => q.disjoint (Region.ofBytes b m bs)) = true := by
  simp only [hostActionOk, registrationOk, Bool.and_eq_true]

/-- Under R304's premise regions stay disjoint (R29). -/
theorem hostApply_disjoint {x : HostAction} {s : State} (hx : hostActionOk x s = true)
    (hs : Memory.disjoint s.regions = true) : Memory.disjoint (hostApply x s).regions = true := by
  cases x with
  | readMem a n =>
    obtain ⟨u, hu⟩ := hostApply_readMem_only_mark a n s
    rw [hu]; exact hs
  | writeMem a v =>
    obtain hw | ⟨i, k, -, hw⟩ := hostApply_writeMem_cases a v s
    · rw [hw]; exact hs
    · rw [hw]; exact Memory.disjoint_modify (f := fun r => r.write k v) (fun _ => ⟨rfl, rfl⟩) hs
  | writeReg i v => exact hs
  | register b m bs => exact Memory.disjoint_append hs (hostActionOk_register.1 hx).2

/-- Settles O37: every host action extends memory, and a registration under its premise maps its own addresses. -/
theorem regionsAreAppendOnly : Obligations.RegionsAreAppendOnly := by
  refine ⟨fun x s => ?_, fun i k v s => ⟨readReg_writeReg i k v s, rfl, rfl⟩, fun b m bs s a hx hlo hhi ha => ?_⟩
  · obtain ⟨hpc, hhalt, hfpr, hhi, hlo⟩ := hostApply_frame x s
    have he := hostApply_extends x s
    exact ⟨he.region, he.map, fun a b hb => he.initialized hb, hpc, hhalt, hfpr, hhi, hlo,
      fun hx k => readReg_hostApply hx s k, hostApply_disjoint⟩
  · exact mapAddr_registered (hostActionOk_register.1 hx).2 (decide_eq_true ⟨hlo, hhi⟩) ha

/-- Settles O9: every form with register 0 in it follows from its operation's equation, which knows no special
index. -/
theorem registerZeroIsOrdinary : Obligations.RegisterZeroIsOrdinary := by
  refine ⟨readReg_writeReg, fun a b sh imm s => ?_, fun d a sh imm s => ?_⟩
  · exact ⟨exec_sll _ _ _ s, exec_srl _ _ _ s, exec_add _ _ _ s, exec_sub _ _ _ s, exec_xor _ _ _ s,
      exec_ori _ _ _ s, exec_lui _ _ s⟩
  · exact ⟨exec_sll _ _ _ s, exec_srl _ _ _ s, exec_add _ _ _ s, exec_add _ _ _ s, exec_sub _ _ _ s,
      exec_sub _ _ _ s, exec_xor _ _ _ s, exec_xor _ _ _ s, exec_ori _ _ _ s⟩

end Sys2Proof.Machine

/-! The statements of 20_memory.md: `map`, the byte and multi-byte reads, the byte write. -/

namespace Sys2Proof.Machine

/-! ### `map` (R53, R54) -/

theorem Region.contains_iff {r : Region} {a : Nat} :
    r.contains a = true ↔ r.base.toNat ≤ a ∧ a - r.base.toNat < r.maxLen := by
  simp [Region.contains]

theorem scanRegions_cons_of_contains {r : Region} {m : Memory} {a : Nat} (h : r.contains a = true) :
    scanRegions (r :: m) a = some (0, a - r.base.toNat) := by
  simp [scanRegions, h]

theorem scanRegions_cons_of_not_contains {r : Region} {m : Memory} {a : Nat} (h : ¬ r.contains a = true) :
    scanRegions (r :: m) a = (scanRegions m a).map fun p => (p.1 + 1, p.2) := by
  rw [scanRegions, if_neg h]
  cases scanRegions m a <;> rfl

/-- What the scan answers, in both directions (R53). -/
theorem scanRegions_eq_some_iff {m : Memory} {a i k : Nat} : scanRegions m a = some (i, k) ↔
    ∃ r, m[i]? = some r ∧ r.contains a = true ∧ k = a - r.base.toNat ∧
      ∀ (j : Nat) (q : Region), j < i → m[j]? = some q → ¬ q.contains a = true := by
  induction m generalizing i with
  | nil => simp [scanRegions]
  | cons p m ih =>
    by_cases hp : p.contains a = true
    · rw [scanRegions_cons_of_contains hp]
      cases i with
      | zero => simp [hp, eq_comm (a := k)]
      | succ i => exact iff_of_false (by simp) fun ⟨_, _, _, _, h⟩ => h 0 p (by omega) rfl hp
    · rw [scanRegions_cons_of_not_contains hp]
      cases i with
      | zero => simp [hp]
      | succ i =>
        have hshift : (∀ (j : Nat) (q : Region), j < i + 1 → (p :: m)[j]? = some q → ¬ q.contains a = true) ↔
            ∀ (j : Nat) (q : Region), j < i → m[j]? = some q → ¬ q.contains a = true := by
          rw [← Nat.and_forall_add_one]
          simp [hp]
        simp only [hshift, List.getElem?_cons_succ, ← ih]
        simp

/-- `map` of an address below `2^32` is the scan. -/
theorem mapAddr_toNat (m : Memory) (a : Word) : mapAddr m a.toNat = scanRegions m a.toNat := if_pos a.isLt

/-- Settles O29 by the scan's equivalence. -/
theorem mapFindsFirstContainingRegion : Obligations.MapFindsFirstContainingRegion := by
  intro m a i k
  simp only [mapAddr_toNat, scanRegions_eq_some_iff, Region.contains_iff, and_assoc]

/-! ### The byte at a mapped address (R52, R55) -/

theorem byteAt_of_mapAddr_none {m : Memory} {a : Nat} (h : mapAddr m a = none) : byteAt m a = .unmapped := by
  simp [byteAt, h]

/-- No region holds an address of `2^32` or more (R61, D16). -/
theorem byteAt_past_top {m : Memory} {a : Nat} (h : 2 ^ 32 ≤ a) : byteAt m a = .unmapped :=
  byteAt_of_mapAddr_none (if_neg (by omega))

theorem byteAt_of_mapAddr {m : Memory} {a i k : Nat} {r : Region} (h : mapAddr m a = some (i, k))
    (hr : m[i]? = some r) : byteAt m a = r.byteAt k := by
  simp [byteAt, h, regionAt_eq hr]

@[simp] theorem Region.backing_getElem (r : Region) (k : Nat) (h : k < r.backing.length) :
    r.backing[k]'h = cellsGet (r.base.toNat + k) r.cells := by
  simp [Region.backing]

theorem Region.byteAt_backing {r : Region} {k : Nat} (h : k < r.backing.length) :
    r.byteAt k = .initialized (r.backing[k]'h) := by
  have hk : k < r.len := by simpa using h
  simp [Region.byteAt, hk]

theorem Region.byteAt_past_end {r : Region} {k : Nat} (h : r.len ≤ k) : r.byteAt k = .uninitialized :=
  if_neg (by omega)

/-- Settles O30: one case for each state of the byte. -/
theorem readByteFollowsThreeStates : Obligations.ReadByteFollowsThreeStates := by
  refine fun a s => ⟨fun hm => ?_, fun i k r hm hr hk => ?_, fun i k r hm hr hk => ?_⟩
  · simp [readByte, byteAt_of_mapAddr_none hm]
  · simp only [readByte, byteAt_of_mapAddr hm hr, Region.byteAt_backing hk]
  · have hlen : r.len ≤ k := by simpa using hk
    simp only [readByte, byteAt_of_mapAddr hm hr, Region.byteAt_past_end hlen, markUninit]

/-! ### Reads of several bytes (R57 to R61) -/

/-- Bytes from the least significant up compose to the sum of each times its power of 256 (R57, D7). -/
theorem natOfBytesLE_map_range (n : Nat) (b : Nat → Byte) :
    natOfBytesLE ((List.range n).map b) = ((List.range n).map fun j => (b j).toNat * 2 ^ (8 * j)).sum := by
  induction n generalizing b with
  | zero => rfl
  | succ n ih =>
    have hterm : ∀ j, (b (j + 1)).toNat * 2 ^ (8 * (j + 1)) = 256 * ((b (j + 1)).toNat * 2 ^ (8 * j)) := fun j => by
      ring
    simp [List.range_succ_eq_map, natOfBytesLE, Function.comp_def, hterm, List.sum_map_mul_left,
      ih fun j => b (j + 1)]

/-- Settles O31: the bytes the read answers, composed in `MEM_ORDER`. -/
theorem memReadComposesBytes : Obligations.MemReadComposesBytes := by
  intro a n s b hb
  rw [← natOfBytesLE_map_range, memRead, readBytes_peek hb]
  rfl

/-- Settles O32 by the law on byte reads that meet an unmapped byte. -/
theorem memReadFailsAtFirstUnmappedByte : Obligations.MemReadFailsAtFirstUnmappedByte := by
  intro a n s j hj hu hm
  rw [memRead, readBytes_first_unmapped hj hu hm]

/-- A read that covers an unmapped byte fails, at that byte or before it (R59). -/
theorem memRead_of_unmapped {a : Word} {n : Width} {s : State} {j : Nat} (hj : j < n.bytes)
    (hu : byteAt s.regions (a.toNat + j) = .unmapped) :
    ∃ l t, l ≤ j ∧ memRead a n s = .unknown (a.toNat + l) t := by
  have hex : ∃ l, byteAt s.regions (a.toNat + l) = .unmapped := ⟨j, hu⟩
  have hle : Nat.find hex ≤ j := Nat.find_min' hex hu
  exact ⟨Nat.find hex, _, hle, memReadFailsAtFirstUnmappedByte a n s _ (hle.trans_lt hj) (Nat.find_spec hex)
    fun _ => Nat.find_min hex⟩

/-- Settles O33: the byte at address `2^32` is one of the read's and is unmapped. -/
theorem noReadPassesTopOfAddressSpace : Obligations.NoReadPassesTopOfAddressSpace := by
  intro a n s h v t hd
  obtain ⟨l, u, -, hr⟩ := memRead_of_unmapped (a := a) (n := n) (s := s) (j := 2 ^ 32 - a.toNat) (by omega)
    (byteAt_past_top (by omega))
  rw [hr] at hd
  cases hd

/-! ### The byte write on one region (R62, D11) -/

section RegionWrite

variable {r : Region} {k l : Nat} {v : Byte}

/-- What the cells of a region hold after a byte write, at every offset. -/
theorem Region.cellsGet_write (h : r.wf = true) :
    cellsGet (r.base.toNat + l) (r.write k v).cells = if l = k then v else cellsGet (r.base.toNat + l) r.cells := by
  obtain ⟨hc, -, -⟩ := Region.wf_iff.1 h
  split <;> rename_i hl
  · rw [hl]; exact cellsGet_cellsPut_same hc
  · exact cellsGet_cellsPut_other (by omega)

/-- A byte of the gap that a growing write opens is initialized zero. -/
theorem Region.byteAt_write_gap (h : r.wf = true) (hl : r.len ≤ l) (hk : l < k) :
    (r.write k v).byteAt l = .initialized 0#8 := by
  have hin : l < max r.len (k + 1) := by omega
  simp [Region.byteAt, hin, Region.cellsGet_write h, hk.ne, Region.cells_past_end h hl]

/-- Inside the old backing or above the written offset, every other byte stays as it was. -/
theorem Region.byteAt_write_other (h : r.wf = true) (hne : l ≠ k) (hl : l < r.len ∨ k < l) :
    (r.write k v).byteAt l = r.byteAt l := by
  have hlen : l < max r.len (k + 1) ↔ l < r.len := by omega
  simp [Region.byteAt, hlen, Region.cellsGet_write h, hne]

end RegionWrite

/-- Settles O35: both lists have the same length and agree at each offset, below the old end, in the gap and at the
written byte. -/
theorem regionWriteGrowsBacking : Obligations.RegionWriteGrowsBacking := by
  intro r k v h _
  split <;> rename_i hk <;> rw [Region.backing_length] at hk
  · refine List.ext_getElem (by simp; omega) fun l _ _ => ?_
    simp [Region.cellsGet_write h, List.getElem_set, eq_comm]
  · refine List.ext_getElem (by simp; omega) fun l hl _ => ?_
    have hlk : l ≤ k := by simp at hl; omega
    rcases hlk.lt_or_eq with hlk | rfl
    · rcases Nat.lt_or_ge l r.len with hr | hr
      · simp [Region.cellsGet_write h, hr, hlk.ne]
      · simp [Region.cellsGet_write h, Region.cells_past_end h hr, List.getElem_append, hlk.ne, hlk.not_ge, hr.not_gt,
          Nat.sub_add_cancel hr]
    · simp [Region.cellsGet_write h, List.getElem_append, hk]

/-! ### The byte write on memory (R62, D11) -/

section MemoryWrite

variable {m : Memory} {i k b : Nat} {v : Byte}

theorem mapAddr_modify_write (m : Memory) (i k b : Nat) (v : Byte) :
    mapAddr (m.modify i fun r => r.write k v) b = mapAddr m b :=
  mapAddr_modify m i b (fun r => r.write k v) fun _ => ⟨rfl, rfl⟩

/-- In the written region a byte reads as the written region says. -/
theorem byteAt_modify_write_same {l : Nat} {r : Region} (hb : mapAddr m b = some (i, l)) (hr : m[i]? = some r) :
    byteAt (m.modify i fun r => r.write k v) b = (r.write k v).byteAt l :=
  byteAt_of_mapAddr ((mapAddr_modify_write m i k b v).trans hb) (by simp [hr])

/-- Outside the written region no byte changes. -/
theorem byteAt_modify_write_other (hb : ∀ l, mapAddr m b ≠ some (i, l)) :
    byteAt (m.modify i fun r => r.write k v) b = byteAt m b := by
  cases hm : mapAddr m b with
  | none => rw [byteAt_of_mapAddr_none hm, byteAt_of_mapAddr_none ((mapAddr_modify_write m i k b v).trans hm)]
  | some p =>
    obtain ⟨j, l⟩ := p
    obtain ⟨q, hq, -⟩ := mapAddr_spec hm
    have hij : i ≠ j := fun e => hb l (e ▸ hm)
    rw [byteAt_of_mapAddr hm hq,
      byteAt_of_mapAddr (r := q) ((mapAddr_modify_write m i k b v).trans hm) (by simp [hij, hq])]

end MemoryWrite

/-- Two addresses that `map` answers alike are one address. -/
theorem mapAddr_injective {m : Memory} {a b i k : Nat} (ha : mapAddr m a = some (i, k))
    (hb : mapAddr m b = some (i, k)) : a = b := by
  obtain ⟨r, hr, hak, -⟩ := mapAddr_spec ha
  obtain ⟨q, hq, hbk, -⟩ := mapAddr_spec hb
  obtain rfl : r = q := Option.some.inj (hr.symm.trans hq)
  exact hak.symm.trans hbk

/-- A byte write to a mapped address succeeds and rewrites one region (R62). -/
theorem memWrite_of_mapAddr {a : Word} {v : Byte} {s : State} {i k : Nat}
    (h : mapAddr s.regions a.toNat = some (i, k)) :
    memWrite a v s = .done () { s with regions := s.regions.modify i fun r => r.write k v } := by
  simp [memWrite, writeByte, h]

/-- Settles O34: in the written region by the region's three cases, elsewhere because no other region changes. -/
theorem byteWriteIsReadBackAndFramed : Obligations.ByteWriteIsReadBackAndFramed := by
  intro a v s i k r hs ha hr
  have hwf : r.wf = true := Memory.wf_iff.1 hs r (List.mem_of_getElem? hr)
  have hw := memWrite_of_mapAddr (v := v) ha
  refine ⟨_, hw, (byteAt_writeByte hs hw).1, fun b l _ hb hl hk => ?_, fun b hne hb => ?_,
    fun _ => rfl, rfl, rfl, rfl, rfl, rfl, rfl⟩
  · exact (byteAt_modify_write_same hb hr).trans (Region.byteAt_write_gap hwf hl hk)
  · by_cases hin : ∃ l, mapAddr s.regions b = some (i, l)
    · obtain ⟨l, hl⟩ := hin
      have hlk : l ≠ k := fun e => hne (mapAddr_injective hl (e ▸ ha))
      rw [byteAt_of_mapAddr hl hr]
      exact (byteAt_modify_write_same hl hr).trans (Region.byteAt_write_other hwf hlk (hb l hl))
    · exact byteAt_modify_write_other fun l hl => hin ⟨l, hl⟩

end Sys2Proof.Machine

/-! The statements of 30_encoding.md: the decoder, the encoder and the opcode table. -/

namespace Sys2Proof.Machine

/-! ### What the decoders read -/

/-- The word's fields are the instruction's: the selecting fields hold its code and each operand stands at its place;
the fields its operation ignores are not looked at (R107). -/
def ReadFrom (w : Word) : Instr → Prop
  | .sll rd rt shamt => opcodeOf w = 0x00#6 ∧ functOf w = 0x00#6 ∧ rdOf w = rd ∧ rtOf w = rt ∧ shamtOf w = shamt
  | .srl rd rt shamt => opcodeOf w = 0x00#6 ∧ functOf w = 0x02#6 ∧ rdOf w = rd ∧ rtOf w = rt ∧ shamtOf w = shamt
  | .add rd rs rt => opcodeOf w = 0x00#6 ∧ functOf w = 0x20#6 ∧ rdOf w = rd ∧ rsOf w = rs ∧ rtOf w = rt
  | .sub rd rs rt => opcodeOf w = 0x00#6 ∧ functOf w = 0x22#6 ∧ rdOf w = rd ∧ rsOf w = rs ∧ rtOf w = rt
  | .xor rd rs rt => opcodeOf w = 0x00#6 ∧ functOf w = 0x26#6 ∧ rdOf w = rd ∧ rsOf w = rs ∧ rtOf w = rt
  | .ori rt rs imm => opcodeOf w = 0x0D#6 ∧ rtOf w = rt ∧ rsOf w = rs ∧ immOf w = imm
  | .lui rt imm => opcodeOf w = 0x0F#6 ∧ rtOf w = rt ∧ immOf w = imm
  | .lw rt imm rs => opcodeOf w = 0x23#6 ∧ rtOf w = rt ∧ immOf w = imm ∧ rsOf w = rs
  | .beq rs rt imm => opcodeOf w = 0x04#6 ∧ rsOf w = rs ∧ rtOf w = rt ∧ immOf w = imm
  | .j target => opcodeOf w = 0x02#6 ∧ targetOf w = target

/-- The engine's decode answers exactly the executable instructions the word's fields are (R217). -/
theorem engineDecode_eq_some_iff {w : Word} {i : Instr} :
    engineDecode w = some i ↔ i.executes = true ∧ ReadFrom w i := by
  constructor
  · intro h
    refine ⟨engineDecode_executes h, ?_⟩
    unfold engineDecode at h
    split at h <;> split at h <;> cases h <;> simp [ReadFrom, *]
  · rintro ⟨hx, h⟩
    cases i <;> simp_all [engineDecode, ReadFrom, Instr.executes]

/-- The decoder answers exactly the instructions the word's fields are. -/
theorem decodeWord_eq_ok_iff {w : Word} {i : Instr} : decodeWord w = .ok i ↔ ReadFrom w i := by
  constructor
  · intro h
    cases he : engineDecode w with
    | some k =>
      obtain rfl : k = i := Except.ok.inj ((decodeWord_of_engine he).symm.trans h)
      exact (engineDecode_eq_some_iff.1 he).2
    | none =>
      simp only [decodeWord, he] at h
      split at h <;> cases h <;> simp [ReadFrom, *]
  · intro h
    cases i <;> simp_all [decodeWord, engineDecode, ReadFrom]

/-- The engine's decode selects a word exactly when what the decoder reads from it executes. -/
theorem engineDecode_selects_iff {w : Word} {i : Instr} (h : decodeWord w = .ok i) :
    (∃ k, engineDecode w = some k) ↔ i.executes = true := by
  constructor
  · rintro ⟨k, hk⟩
    obtain rfl : k = i := Except.ok.inj ((decodeWord_of_engine hk).symm.trans h)
    exact engineDecode_executes hk
  · exact fun hx => ⟨i, engineDecode_eq_some_iff.2 ⟨hx, decodeWord_eq_ok_iff.1 h⟩⟩

/-! ### The encoder's word and the ignored bits (R107, R184) -/

theorem extractLsb'_and_of_eq_allOnes {w m : Word} {k n : Nat} (h : m.extractLsb' k n = BitVec.allOnes n) :
    (w &&& m).extractLsb' k n = w.extractLsb' k n := by
  rw [BitVec.extractLsb'_and, h, BitVec.and_allOnes]

theorem extractLsb'_and_of_eq_zero {w m : Word} {k n : Nat} (h : m.extractLsb' k n = 0#n) :
    (w &&& m).extractLsb' k n = 0#n := by
  rw [BitVec.extractLsb'_and, h, BitVec.and_zero]

/-- Clearing the place of `rs` clears that field and keeps the others. -/
theorem fields_clear_rs (w : Word) :
    opcodeOf (w &&& ~~~0x03E00000#32) = opcodeOf w ∧ rsOf (w &&& ~~~0x03E00000#32) = 0#5 ∧
    rtOf (w &&& ~~~0x03E00000#32) = rtOf w ∧ rdOf (w &&& ~~~0x03E00000#32) = rdOf w ∧
    shamtOf (w &&& ~~~0x03E00000#32) = shamtOf w ∧ functOf (w &&& ~~~0x03E00000#32) = functOf w ∧
    immOf (w &&& ~~~0x03E00000#32) = immOf w :=
  ⟨extractLsb'_and_of_eq_allOnes (by decide), extractLsb'_and_of_eq_zero (by decide),
    extractLsb'_and_of_eq_allOnes (by decide), extractLsb'_and_of_eq_allOnes (by decide),
    extractLsb'_and_of_eq_allOnes (by decide), extractLsb'_and_of_eq_allOnes (by decide),
    extractLsb'_and_of_eq_allOnes (by decide)⟩

/-- Clearing the place of `shamt` clears that field and keeps the others. -/
theorem fields_clear_shamt (w : Word) :
    opcodeOf (w &&& ~~~0x000007C0#32) = opcodeOf w ∧ rsOf (w &&& ~~~0x000007C0#32) = rsOf w ∧
    rtOf (w &&& ~~~0x000007C0#32) = rtOf w ∧ rdOf (w &&& ~~~0x000007C0#32) = rdOf w ∧
    shamtOf (w &&& ~~~0x000007C0#32) = 0#5 ∧ functOf (w &&& ~~~0x000007C0#32) = functOf w :=
  ⟨extractLsb'_and_of_eq_allOnes (by decide), extractLsb'_and_of_eq_allOnes (by decide),
    extractLsb'_and_of_eq_allOnes (by decide), extractLsb'_and_of_eq_allOnes (by decide),
    extractLsb'_and_of_eq_zero (by decide), extractLsb'_and_of_eq_allOnes (by decide)⟩

/-- The R layout puts the fields of a word of opcode 0 back (R95). -/
theorem wordR_fields {w : Word} (h : opcodeOf w = 0#6) :
    wordR (rsOf w) (rtOf w) (rdOf w) (shamtOf w) (functOf w) = w := by
  rw [wordR, ← h]
  refine BitVec.eq_of_getLsbD_eq fun i hi => ?_
  simp only [opcodeOf, rsOf, rtOf, rdOf, shamtOf, functOf, BitVec.getLsbD_extractLsb', BitVec.getLsbD_append]
  interval_cases i <;> simp

/-- What an instruction is read from does not depend on the bits its operation ignores. -/
theorem readFrom_clear_ignored {w : Word} {i : Instr} : ReadFrom (w &&& ~~~ignoredBits i) i ↔ ReadFrom w i := by
  cases i <;> simp only [ReadFrom, ignoredBits, fields_clear_rs, fields_clear_shamt, BitVec.not_zero,
    BitVec.and_allOnes]

theorem canonicalWord_clear_ignored (w : Word) (i : Instr) : CanonicalWord (w &&& ~~~ignoredBits i) i := by
  cases i <;> simp only [CanonicalWord, ignoredBits, fields_clear_rs, fields_clear_shamt]

theorem readFrom_encode (i : Instr) : ReadFrom (encode i) i := by
  cases i <;> simp [ReadFrom, encode]

theorem canonicalWord_encode (i : Instr) : CanonicalWord (encode i) i := by
  cases i <;> simp [CanonicalWord, encode]

/-- A word with the instruction's fields and the ignored ones zero is the encoder's. -/
theorem encode_eq_of_readFrom {w : Word} {i : Instr} (h : ReadFrom w i) (hc : CanonicalWord w i) : encode i = w := by
  cases i <;> simp only [ReadFrom, CanonicalWord] at h hc
  case sll | srl | add | sub | xor => simpa only [encode, h, hc] using wordR_fields h.1
  case ori | lui | lw | beq => simpa only [encode, h, hc] using wordI_fields w
  case j => simpa only [encode, h] using wordJ_fields w

/-- The encoder's word of what a word is read as. -/
theorem encode_eq_clear_ignored {w : Word} {i : Instr} (h : ReadFrom w i) : encode i = w &&& ~~~ignoredBits i :=
  encode_eq_of_readFrom (readFrom_clear_ignored.2 h) (canonicalWord_clear_ignored w i)

theorem decodeWord_encode (i : Instr) : decodeWord (encode i) = .ok i := decodeWord_eq_ok_iff.2 (readFrom_encode i)

/-! ### Bytes (R140, R142) -/

/-- A word's four bytes are loaded back to it. -/
theorem loadWord_byteOf (w : Word) : loadWord (byteOf w 0) (byteOf w 1) (byteOf w 2) (byteOf w 3) = w := by
  have hw : w.toNat < 2 ^ 32 := w.isLt
  refine BitVec.eq_of_toNat_eq ?_
  simp only [loadWord, wordOfBytes, natOfBytes, Config.objOrder, natOfBytesLE, byteOf, BitVec.toNat_ofNat,
    BitVec.extractLsb'_toNat, Nat.shiftRight_eq_div_pow]
  omega

theorem decodeBytes_emitWord_append {w : Word} {i : Instr} (h : decodeWord w = .ok i) (rest : List Byte) :
    decodeBytes (emitWord w ++ rest) = .ok (i, rest) := by
  simp [emitWord, bytesOf, Config.objOrder, decodeBytes, loadWord_byteOf, h]

/-- Settles O39: every field of the encoder's word is the instruction's, and its bytes load back to the word. -/
theorem decodeOfEncodeIsIdentity : Obligations.DecodeOfEncodeIsIdentity :=
  fun i rest _ => ⟨decodeWord_encode i, decodeBytes_emitWord_append (decodeWord_encode i) rest⟩

/-- Settles O40: what a word is read as does not depend on its ignored bits, and a word with the instruction's fields
and those bits zero is the encoder's. -/
theorem encodeOfDecodeIsCanonicalWord : Obligations.EncodeOfDecodeIsCanonicalWord := by
  intro w i hw
  have h : ReadFrom w i := decodeWord_eq_ok_iff.1 hw
  refine ⟨encode_eq_clear_ignored h, ⟨fun he => ?_, encode_eq_of_readFrom h⟩, fun v hv => ?_⟩
  · exact he ▸ canonicalWord_encode i
  · rw [decodeWord_eq_ok_iff, ← readFrom_clear_ignored, hv, readFrom_clear_ignored]
    exact h

/-! ### The opcode table (R105, R106) -/

theorem rowMatch (i : Instr) : Laws.RowMatch.Statement i := by
  cases i with
  | sll rd rt shamt => exact Laws.RowMatch.sll rd rt shamt
  | srl rd rt shamt => exact Laws.RowMatch.srl rd rt shamt
  | add rd rs rt => exact Laws.RowMatch.add rd rs rt
  | sub rd rs rt => exact Laws.RowMatch.sub rd rs rt
  | xor rd rs rt => exact Laws.RowMatch.xor rd rs rt
  | ori rt rs imm => exact Laws.RowMatch.ori rt rs imm
  | lui rt imm => exact Laws.RowMatch.lui rt imm
  | lw rt imm rs => exact Laws.RowMatch.lw rt imm rs
  | beq rs rt imm => exact Laws.RowMatch.beq rs rt imm
  | j target => exact Laws.RowMatch.j target

/-- No row looks at a bit that some operation ignores. -/
theorem rowMask_clear_ignored (i : Instr) : ∀ r ∈ opcodeTable, ~~~ignoredBits i &&& r.mask = r.mask := by
  cases i <;> simp only [ignoredBits] <;> decide

/-- A word belongs to the rows of the mnemonic read from it. -/
theorem matchesWord_iff_mnemonic {w : Word} {i : Instr} {r : Row} (hr : r ∈ opcodeTable) (h : ReadFrom w i) :
    r.matchesWord w = true ↔ r.mnemonic = i.mnemonic := by
  rw [← rowMatch i r hr, encode_eq_clear_ignored h, Row.matchesWord, Row.matchesWord, BitVec.and_assoc,
    rowMask_clear_ignored i r hr]

/-- A word of a row is one the decoder reads, and it executes as the row says. -/
theorem readFrom_of_matchesWord {w : Word} {r : Row} (hr : r ∈ opcodeTable) (h : r.matchesWord w = true) :
    ∃ i, ReadFrom w i ∧ i.executes = r.executes := by
  simp only [opcodeTable_rows, List.mem_cons, List.not_mem_nil, or_false] at hr
  rcases hr with rfl | rfl | rfl | rfl | rfl | rfl | rfl | rfl | rfl | rfl <;>
    simp only [matchesWord_rowR, matchesWord_rowI] at h
  · exact ⟨.sll _ _ _, ⟨h.1, h.2, rfl, rfl, rfl⟩, rfl⟩
  · exact ⟨.srl _ _ _, ⟨h.1, h.2, rfl, rfl, rfl⟩, rfl⟩
  · exact ⟨.add _ _ _, ⟨h.1, h.2, rfl, rfl, rfl⟩, rfl⟩
  · exact ⟨.sub _ _ _, ⟨h.1, h.2, rfl, rfl, rfl⟩, rfl⟩
  · exact ⟨.xor _ _ _, ⟨h.1, h.2, rfl, rfl, rfl⟩, rfl⟩
  · exact ⟨.ori _ _ _, ⟨h, rfl, rfl, rfl⟩, rfl⟩
  · exact ⟨.lui _ _, ⟨h, rfl, rfl⟩, rfl⟩
  · exact ⟨.lw _ _ _, ⟨h, rfl, rfl, rfl⟩, rfl⟩
  · exact ⟨.beq _ _ _, ⟨h, rfl, rfl, rfl⟩, rfl⟩
  · exact ⟨.j _, ⟨h, rfl⟩, rfl⟩

/-- Settles O41: a word of a row decodes, and a word that decodes belongs to the row of its mnemonic alone. -/
theorem decoderAgreesWithOpcodeTable : Obligations.DecoderAgreesWithOpcodeTable := by
  intro w r hr
  refine ⟨⟨fun h => ?_, fun ⟨i, hi, hm⟩ => ?_⟩, fun h => ?_⟩
  · obtain ⟨i, hi, -⟩ := readFrom_of_matchesWord hr h
    exact ⟨i, decodeWord_eq_ok_iff.2 hi, ((matchesWord_iff_mnemonic hr hi).1 h).symm⟩
  · exact (matchesWord_iff_mnemonic hr (decodeWord_eq_ok_iff.1 hi)).2 hm.symm
  · obtain ⟨i, hi, hx⟩ := readFrom_of_matchesWord hr h
    rw [engineDecode_selects_iff (decodeWord_eq_ok_iff.2 hi), hx]

/-- The seven selections written out (R109, R217): the executable instructions a word's fields can be. -/
theorem engineDecode_eq_some_iff_selection {w : Word} {i : Instr} : engineDecode w = some i ↔
    (opcodeOf w = 0x00#6 ∧ functOf w = 0x00#6 ∧ i = .sll (rdOf w) (rtOf w) (shamtOf w)) ∨
    (opcodeOf w = 0x00#6 ∧ functOf w = 0x02#6 ∧ i = .srl (rdOf w) (rtOf w) (shamtOf w)) ∨
    (opcodeOf w = 0x00#6 ∧ functOf w = 0x20#6 ∧ i = .add (rdOf w) (rsOf w) (rtOf w)) ∨
    (opcodeOf w = 0x00#6 ∧ functOf w = 0x22#6 ∧ i = .sub (rdOf w) (rsOf w) (rtOf w)) ∨
    (opcodeOf w = 0x00#6 ∧ functOf w = 0x26#6 ∧ i = .xor (rdOf w) (rsOf w) (rtOf w)) ∨
    (opcodeOf w = 0x0D#6 ∧ i = .ori (rtOf w) (rsOf w) (immOf w)) ∨
    (opcodeOf w = 0x0F#6 ∧ i = .lui (rtOf w) (immOf w)) := by
  rw [engineDecode_eq_some_iff]
  cases i <;> simp [ReadFrom, Instr.executes, eq_comm]

/-- Settles O42: the selections written out, and for the first clause their selecting fields alone. -/
theorem executableWordsAreSevenSelections : Obligations.ExecutableWordsAreSevenSelections := by
  refine ⟨fun w => ?_, fun _ _ => engineDecode_eq_some_iff_selection⟩
  simp only [engineDecode_eq_some_iff_selection, exists_or, exists_and_left, exists_eq, and_true, and_or_left, or_assoc]

/-- Settles O43 by comparing the ten rows of the table. -/
theorem opcodeTableRowsDisjoint : Obligations.OpcodeTableRowsDisjoint := by
  unfold Obligations.OpcodeTableRowsDisjoint
  decide

/-- Settles O44 by running the decoder on the five words. -/
theorem sampleWordsDecode : Obligations.SampleWordsDecode := by
  unfold Obligations.SampleWordsDecode
  decide

end Sys2Proof.Machine

/-! The statements of 40_field_codec.md: `mask`, `pack` and `unpack`, the bytes of a word, the object stream. -/

namespace Sys2Proof.Machine

/-! ### `mask` and the checks of `pack` (R130 to R137) -/

theorem mask_of_lt {v : Word} {n : Nat} (h : v.toNat < 2 ^ n) : mask v n = .ok v := if_pos h

theorem mask_of_le {v : Word} {n : Nat} (h : 2 ^ n ≤ v.toNat) : mask v n = .error (.overflow v.toNat n none) :=
  if_neg (Nat.not_lt.2 h)

/-- Settles O45 by the two branches of the range test. -/
theorem maskIsStrictAndIdempotent : Obligations.MaskIsStrictAndIdempotent := by
  refine fun v n => ⟨fun u hu => ?_, mask_of_le, mask_of_lt⟩
  obtain ⟨hv, rfl⟩ := mask_eq_ok.1 hu
  exact ⟨rfl, mask_of_lt hv⟩

theorem placed_of_lt {f : Field} {v : Word} (h : v.toNat < 2 ^ f.width) : placed f (some v) = .ok (v <<< f.lsb) := by
  simp [placed, maskField_eq, h]

theorem placed_of_le {f : Field} {v : Word} (h : 2 ^ f.width ≤ v.toNat) :
    placed f (some v) = .error (.overflow v.toNat f.width (some f)) := by
  simp [placed, maskField_eq, Nat.not_lt.2 h]

/-! `pack` fails with the condition of the first input that fails, most significant field first (R137). -/
section FirstFailure

variable {p : PackFields} {e : AsmCondition} {op rs rt rd sh : Word}

theorem pack_opcode_error (h : placed .opcode p.opcode = .error e) : pack p = .error e := by
  rw [pack, h]; rfl

theorem pack_rs_error (h0 : placed .opcode p.opcode = .ok op) (h : placed .rs p.rs = .error e) :
    pack p = .error e := by
  rw [pack, h0, h]; rfl

theorem pack_rt_error (h0 : placed .opcode p.opcode = .ok op) (h1 : placed .rs p.rs = .ok rs)
    (h : placed .rt p.rt = .error e) : pack p = .error e := by
  rw [pack, h0, h1, h]; rfl

theorem pack_rd_error (h0 : placed .opcode p.opcode = .ok op) (h1 : placed .rs p.rs = .ok rs)
    (h2 : placed .rt p.rt = .ok rt) (h : placed .rd p.rd = .error e) : pack p = .error e := by
  rw [pack, h0, h1, h2, h]; rfl

theorem pack_shamt_error (h0 : placed .opcode p.opcode = .ok op) (h1 : placed .rs p.rs = .ok rs)
    (h2 : placed .rt p.rt = .ok rt) (h3 : placed .rd p.rd = .ok rd) (h : placed .shamt p.shamt = .error e) :
    pack p = .error e := by
  rw [pack, h0, h1, h2, h3, h]; rfl

theorem pack_funct_error (h0 : placed .opcode p.opcode = .ok op) (h1 : placed .rs p.rs = .ok rs)
    (h2 : placed .rt p.rt = .ok rt) (h3 : placed .rd p.rd = .ok rd) (h4 : placed .shamt p.shamt = .ok sh)
    (h : placed .funct p.funct = .error e) : pack p = .error e := by
  rw [pack, h0, h1, h2, h3, h4, h]; rfl

end FirstFailure

/-- Settles O49: the inputs before the refused one are placed, so the check reaches it. -/
theorem packRReportsFirstOverflow : Obligations.PackRReportsFirstOverflow := by
  refine ⟨fun rs rt rd sh fn => ⟨fun h => ?_, fun h1 h => ?_, fun h1 h2 h => ?_, fun h1 h2 h3 h => ?_,
    fun h1 h2 h3 h4 h => ?_⟩, fun op rs rt imm => ⟨fun h => ?_, fun h0 h => ?_, fun h0 h1 h => ?_⟩, fun op a h => ?_⟩
  · exact pack_rs_error rfl (placed_of_le h)
  · exact pack_rt_error rfl (placed_of_lt h1) (placed_of_le h)
  · exact pack_rd_error rfl (placed_of_lt h1) (placed_of_lt h2) (placed_of_le h)
  · exact pack_shamt_error rfl (placed_of_lt h1) (placed_of_lt h2) (placed_of_lt h3) (placed_of_le h)
  · exact pack_funct_error rfl (placed_of_lt h1) (placed_of_lt h2) (placed_of_lt h3) (placed_of_lt h4) (placed_of_le h)
  · exact pack_opcode_error (placed_of_le h)
  · exact pack_rs_error (placed_of_lt h0) (placed_of_le h)
  · exact pack_rt_error (placed_of_lt h0) (placed_of_lt h1) (placed_of_le h)
  · exact pack_opcode_error (placed_of_le h)

/-! ### `pack` and `unpack` (R141) -/

/-- A field widened to an input of `pack` is in range. -/
theorem toNat_setWidth_lt {n : Nat} (hn : n ≤ 32) (v : BitVec n) : (v.setWidth 32).toNat < 2 ^ n := by
  rw [BitVec.toNat_setWidth_of_le hn]
  exact v.isLt

/-- Settles O46: both ways through the R layout of the fields. -/
theorem packRUnpackRRoundTrip : Obligations.PackRUnpackRRoundTrip := by
  refine ⟨fun rs rt rd sh fn h1 h2 h3 h4 h5 => ⟨_, packR_ok h1 h2 h3 h4 h5, opcodeOf_wordR .., ?_⟩, fun w hw => ?_⟩
  · simp [unpackR]
  · have hp := packR_ok (toNat_setWidth_lt (by decide) (rsOf w)) (toNat_setWidth_lt (by decide) (rtOf w))
      (toNat_setWidth_lt (by decide) (rdOf w)) (toNat_setWidth_lt (by decide) (shamtOf w))
      (toNat_setWidth_lt (by decide) (functOf w))
    simpa [wordR_fields hw] using hp

/-- Settles O47: both ways through the I layout of the fields. -/
theorem packIUnpackIRoundTrip : Obligations.PackIUnpackIRoundTrip := by
  refine ⟨fun op rs rt imm h0 h1 h2 => ⟨_, packI_ok h0 h1 h2, ?_⟩, fun w => ?_⟩
  · simp [unpackI]
  · have hp := packI_ok (imm := immOf w) (toNat_setWidth_lt (by decide) (opcodeOf w))
      (toNat_setWidth_lt (by decide) (rsOf w)) (toNat_setWidth_lt (by decide) (rtOf w))
    simpa [wordI_fields] using hp

/-- The J layout is the opcode shifted to the top with the target below it (R94). -/
theorem wordJ_eq_or (op : Six) (tg : Target26) : wordJ op tg = op.setWidth 32 <<< 26 ||| tg.setWidth 32 := by
  rw [wordJ, BitVec.append_def, BitVec.shiftLeftZeroExtend_eq, BitVec.setWidth'_eq]

/-- Settles O48: through the J layout of the opcode and bits 27:2 of the address. -/
theorem packJRecoversAddressField : Obligations.PackJRecoversAddressField := by
  refine ⟨fun op a h0 => ⟨_, packJ_ok h0, ?_, ?_⟩, fun w => ?_⟩
  · simp [unpackJ]
  · simp only [unpackJ, targetOf_wordJ, BitVec.extractLsb'_toNat, Nat.shiftRight_eq_div_pow]
    omega
  · rw [← wordJ_eq_or, wordJ_fields]

/-! ### Bytes and the object stream (R140, R142, R143) -/

theorem emitWord_eq (w : Word) : emitWord w = [byteOf w 0, byteOf w 1, byteOf w 2, byteOf w 3] := rfl

/-- `load_word` as the number its bytes spell, least significant first (D6). -/
theorem toNat_loadWord (b0 b1 b2 b3 : Byte) :
    (loadWord b0 b1 b2 b3).toNat = b0.toNat + b1.toNat * 2 ^ 8 + b2.toNat * 2 ^ 16 + b3.toNat * 2 ^ 24 := by
  have h0 := b0.isLt
  have h1 := b1.isLt
  have h2 := b2.isLt
  have h3 := b3.isLt
  simp only [loadWord, wordOfBytes, natOfBytes, Config.objOrder, natOfBytesLE, BitVec.toNat_ofNat]
  omega

theorem toNat_byteOf (w : Word) (k : Nat) : (byteOf w k).toNat = w.toNat / 2 ^ (8 * k) % 2 ^ 8 := by
  rw [byteOf, BitVec.extractLsb'_toNat, Nat.shiftRight_eq_div_pow]

/-- Four bytes are emitted back from the word they load to. -/
theorem emitWord_loadWord (b0 b1 b2 b3 : Byte) : emitWord (loadWord b0 b1 b2 b3) = [b0, b1, b2, b3] := by
  have h0 := b0.isLt
  have h1 := b1.isLt
  have h2 := b2.isLt
  have h3 := b3.isLt
  simp only [emitWord_eq, List.cons.injEq, and_true, ← BitVec.toNat_inj, toNat_byteOf, toNat_loadWord]
  omega

/-- Settles O50: a word's bytes load back to it, and four bytes are emitted back from what they load to. -/
theorem emitWordLoadWordInverse : Obligations.EmitWordLoadWordInverse :=
  ⟨fun w => ⟨_, _, _, _, emitWord_eq w, loadWord_byteOf w, rfl, rfl, rfl, rfl⟩,
    fun b0 b1 b2 b3 => ⟨emitWord_loadWord b0 b1 b2 b3, toNat_loadWord b0 b1 b2 b3⟩⟩

@[simp] theorem emitWord_length (w : Word) : (emitWord w).length = 4 := rfl

theorem objectStream_cons (w : Word) (ws : List Word) : objectStream (w :: ws) = emitWord w ++ objectStream ws := rfl

theorem objectStream_length (ws : List Word) : (objectStream ws).length = 4 * ws.length := by
  induction ws with
  | nil => rfl
  | cons w ws ih => rw [objectStream_cons, List.length_append, emitWord_length, ih, List.length_cons]; omega

/-- The stream from a word's place on starts with the word's bytes. -/
theorem objectStream_drop {ws : List Word} {i : Nat} {w : Word} (h : ws[i]? = some w) :
    (objectStream ws).drop (4 * i) = emitWord w ++ objectStream (ws.drop (i + 1)) := by
  induction ws generalizing i with
  | nil => simp at h
  | cons v ws ih =>
    cases i with
    | zero =>
      obtain rfl : v = w := by simpa using h
      rfl
    | succ i =>
      have hd : (objectStream (v :: ws)).drop (4 * (i + 1)) = (objectStream ws).drop (4 * i) := by
        rw [objectStream_cons, Nat.mul_add_one, Nat.add_comm]
        exact List.drop_length_add_append (l₁ := emitWord v) (4 * i)
      rw [hd, ih (by simpa using h), List.drop_succ_cons]

/-- Settles O51 by induction on the words: the stream from word `i` on starts with its bytes. -/
theorem objectStreamIsFourBytesPerWord : Obligations.ObjectStreamIsFourBytesPerWord := by
  refine fun ws => ⟨objectStream_length ws, fun i w h => ?_⟩
  rw [objectStream_drop h, List.take_left' (emitWord_length w)]

/-! ### The two passes (R143, R197, R198, R200) -/

section Passes

variable {fe : FrontEnd} {c : Catalog} {labels out : LabelTable} {k : Nat} {cur : Word} {n m : Token}
  {args : List Token} {ns : List Node} {ws : List Word}

theorem pass1_label_ok : pass1 labels k cur (.label n :: ns) = .ok out ↔
    labels.lookup n = none ∧ pass1 (labels ++ [(n, cur)]) (k + 1) cur ns = .ok out := by
  rw [pass1]
  split <;> simp [*]

theorem pass1_directive_ok : pass1 labels k cur (.directive n args :: ns) = .ok out ↔
    directiveSupported n = true ∧ pass1 labels (k + 1) cur ns = .ok out := by
  rw [pass1]
  split <;> simp [*]

theorem pass1_instr : pass1 labels k cur (.instr m args :: ns) = pass1 labels (k + 1) (nextAddress cur) ns := rfl

theorem pass2_instr_ok : pass2 fe c labels k cur (.instr m args :: ns) = .ok ws ↔
    ∃ w us, encodeStatement fe c labels cur m args = .ok w ∧
      pass2 fe c labels (k + 1) (nextAddress cur) ns = .ok us ∧ ws = w :: us := by
  cases hw : encodeStatement fe c labels cur m args with
  | error e => simp [pass2, hw]
  | ok w => cases hu : pass2 fe c labels (k + 1) (nextAddress cur) ns <;> simp [pass2, hw, hu, eq_comm]

/-- A name that a lookup does not find is no name of the table. -/
theorem not_mem_names_of_lookup (h : labels.lookup n = none) : n ∉ labels.map Prod.fst := by
  intro hm
  obtain ⟨p, hp, rfl⟩ := List.mem_map.1 hm
  simpa using List.lookup_eq_none_iff.1 h p hp

/-- What pass 1 accepts declares no name twice and none that the table it starts from holds. -/
theorem pass1_names_nodup (h : pass1 labels k cur ns = .ok out) (hl : (labels.map Prod.fst).Nodup) :
    (labels.map Prod.fst ++ labelNames ns).Nodup := by
  induction ns generalizing labels k cur with
  | nil => simpa [labelNames] using hl
  | cons x ns ih =>
    cases x with
    | label n =>
      obtain ⟨hn, h⟩ := pass1_label_ok.1 h
      have hn' : ((labels ++ [(n, cur)]).map Prod.fst).Nodup := by
        rw [List.map_append]
        exact List.nodup_append_comm.2 (List.nodup_cons.2 ⟨not_mem_names_of_lookup hn, hl⟩)
      simpa [labelNames] using ih h hn'
    | directive n args => exact ih (pass1_directive_ok.1 h).2 hl
    | instr m args => exact ih h hl

/-- What pass 1 accepts holds supported directives alone. -/
theorem pass1_directives_supported (h : pass1 labels k cur ns = .ok out) (hd : .directive n args ∈ ns) :
    directiveSupported n = true := by
  induction ns generalizing labels k cur with
  | nil => cases hd
  | cons x ns ih =>
    cases x with
    | label l => exact ih (pass1_label_ok.1 h).2 (by simpa using hd)
    | directive d as =>
      obtain ⟨hs, h⟩ := pass1_directive_ok.1 h
      rcases List.mem_cons.1 hd with hd | hd
      · cases hd; exact hs
      · exact ih h hd
    | instr m as => exact ih (pass1_instr ▸ h) (by simpa using hd)

/-- Pass 2 answers one word per instruction statement. -/
theorem pass2_length (h : pass2 fe c labels k cur ns = .ok ws) : ws.length = instrCount ns := by
  induction ns generalizing k cur ws with
  | nil => cases h; rfl
  | cons x ns ih =>
    cases x with
    | label l => exact ih h
    | directive d as => exact ih h
    | instr m as =>
      obtain ⟨w, us, -, hu, rfl⟩ := pass2_instr_ok.1 h
      rw [List.length_cons, ih hu, instrCount]

end Passes

theorem assemble_ok {fe : FrontEnd} {c : Catalog} {base : Word} {t : Tree} {bs : List Byte} :
    assemble fe c base t = .ok bs ↔ ∃ labels ws, pass1 [] 0 base (flattenTree t) = .ok labels ∧
      pass2 fe c labels 0 base (flattenTree t) = .ok ws ∧ bs = objectStream ws := by
  cases h1 : pass1 [] 0 base (flattenTree t) with
  | error e => simp [assemble, assembleNodes, h1]
  | ok labels =>
    cases h2 : pass2 fe c labels 0 base (flattenTree t) <;> simp [assemble, assembleNodes, h1, h2, eq_comm]

/-- Settles O59: pass 1 refuses a repeated label and an unsupported directive, pass 2 gives a word per instruction
statement, and the stream has four bytes per word. -/
theorem assembledProgramIsComplete : Obligations.AssembledProgramIsComplete := by
  intro fe c base t bs h
  obtain ⟨labels, ws, h1, h2, rfl⟩ := assemble_ok.1 h
  refine ⟨by rw [objectStream_length, pass2_length h2], decide_eq_true ?_, fun n args => pass1_directives_supported h1⟩
  exact pass1_names_nodup h1 List.nodup_nil

end Sys2Proof.Machine

/-! The statements of 41_register_naming.md: which tokens resolve, to which index, and how the others fail. -/

namespace Sys2Proof.Machine

/-! ### `regindex`, branch by branch (R166) -/

theorem regindex_bare_le {t : Token} (h : isBareDecimal t = true) (hv : decimalValue t ≤ 31) :
    regindex t = .ok (BitVec.ofNat 5 (decimalValue t)) :=
  (if_pos h).trans (if_pos hv)

theorem regindex_bare_gt {t : Token} (h : isBareDecimal t = true) (hv : 31 < decimalValue t) :
    regindex t = .error (.invalidRegister t) :=
  (if_pos h).trans (if_neg (Nat.not_le.2 hv))

/-- A token fails as a literal above 31, or, matching no rule, under the one other name (R165). -/
theorem regindex_error_cases {t : Token} {e : AsmCondition} (h : regindex t = .error e) :
    (isBareDecimal t = true ∧ 31 < decimalValue t ∧ e = .invalidRegister t) ∨ e = .malformedMnemonic t := by
  unfold regindex at h
  split_ifs at h with hb hv
  · cases h; exact .inl ⟨hb, Nat.lt_of_not_le hv, rfl⟩
  · right
    split at h
    · split at h <;> cases h
      rfl
    · cases h; rfl

theorem regindex_dollar {x : Token} {i : Idx5} :
    regindex ('$' :: x) = .ok i ↔ ∃ n, nameIndex x = some n ∧ BitVec.ofNat 5 n = i := by
  have hbare : ¬ isBareDecimal ('$' :: x) = true := by simp [isBareDecimal, isDigit]
  rw [regindex, if_neg hbare]
  cases nameIndex x <;> simp

/-- Settles O53, from both branches on a token of digits alone and the cases in which a token fails. -/
theorem registerTokenConditions : Obligations.RegisterTokenConditions := by
  refine ⟨fun t hb hv => ⟨_, regindex_bare_le hb hv, ?_⟩, fun t => ⟨fun h => ?_, fun ⟨hb, hv⟩ => regindex_bare_gt hb hv⟩,
    fun t e h => (regindex_error_cases h).imp_left fun ⟨_, _, he⟩ => he⟩
  · rw [BitVec.toNat_ofNat, Nat.mod_eq_of_lt (by omega)]
  · obtain ⟨hb, hv, -⟩ | he := regindex_error_cases h
    · exact ⟨hb, hv⟩
    · cases he

/-! ### Bare literals: every number has one (R164) -/

theorem isDigit_eq_char_isDigit (c : Char) : isDigit c = c.isDigit := by
  simp [isDigit, Char.isDigit, UInt32.le_iff_toNat_le]

theorem decimalFrom_eq_ofDigitChars (t : Token) (acc : Nat) : decimalFrom acc t = Nat.ofDigitChars 10 t acc := by
  induction t generalizing acc with
  | nil => rfl
  | cons c cs ih => exact ih _

theorem decimalValue_toDigits (n : Nat) : decimalValue (Nat.toDigits 10 n) = n := by
  rw [decimalValue, decimalFrom_eq_ofDigitChars, Nat.ofDigitChars_toDigits (by decide) (by decide)]

theorem isBareDecimal_toDigits (n : Nat) : isBareDecimal (Nat.toDigits 10 n) = true := by
  have hdigits : ∀ c ∈ Nat.toDigits 10 n, isDigit c = true := fun c hc =>
    (isDigit_eq_char_isDigit c).trans (Nat.isDigit_of_mem_toDigits (by decide) (by decide) hc)
  simpa [isBareDecimal] using hdigits

theorem regindex_toDigits (i : Idx5) : regindex (Nat.toDigits 10 i.toNat) = .ok i := by
  have hi := i.isLt
  rw [regindex_bare_le (isBareDecimal_toDigits _) (by rw [decimalValue_toDigits]; omega), decimalValue_toDigits,
    BitVec.ofNat_toNat, BitVec.setWidth_eq]

/-! ### `$` names: each index has at most one (R161 to R163, R169) -/

/-- The `$` name of an index, the inverse of `nameIndex`: each alias at its index, each family over its range. -/
def registerName (n : Nat) : Option Token :=
  if n = 0 then some ['z', 'e', 'r', 'o']
  else if n = 1 then some ['a', 't']
  else if n ≤ 3 then some ['v', Nat.digitChar (n - 2)]
  else if n ≤ 7 then some ['a', Nat.digitChar (n - 4)]
  else if n ≤ 15 then some ['t', Nat.digitChar (n - 8)]
  else if n ≤ 23 then some ['s', Nat.digitChar (n - 16)]
  else if n ≤ 25 then some ['t', Nat.digitChar (n - 16)]
  else if n = 28 then some ['g', 'p']
  else if n = 29 then some ['s', 'p']
  else if n = 30 then some ['f', 'p']
  else if n = 31 then some ['r', 'a']
  else none

theorem lt_of_registerName {x : Token} {n : Nat} (h : registerName n = some x) : n < 32 := by
  by_contra hn
  have hnone : registerName n = none := by simp (disch := omega) only [registerName, if_neg]
  cases hnone.symm.trans h

theorem digitChar_digitValue {c : Char} (h : isDigit c = true) : Nat.digitChar (digitValue c) = c := by
  obtain ⟨h0, h9⟩ : 48 ≤ c.toNat ∧ c.toNat ≤ 57 := by simpa [isDigit] using h
  apply Char.toNat_inj.1
  rw [digitValue, Nat.toNat_digitChar_of_lt_ten (by omega), Nat.add_sub_cancel' h0]

theorem registerName_of_namedAlias {x : Token} {n : Nat} (h : namedAlias x = some n) : registerName n = some x := by
  rw [namedAlias] at h
  split_ifs at h <;> cases h <;> subst x <;> rfl

theorem registerName_of_familyIndex {letter : Char} {d n : Nat} (h : familyIndex letter d = some n) :
    registerName n = some [letter, Nat.digitChar d] := by
  have hv : ∀ d ≤ 1, registerName (2 + d) = some ['v', Nat.digitChar d] := by decide
  have ha : ∀ d ≤ 3, registerName (4 + d) = some ['a', Nat.digitChar d] := by decide
  have htLow : ∀ d ≤ 7, registerName (8 + d) = some ['t', Nat.digitChar d] := by decide
  have hs : ∀ d ≤ 7, registerName (16 + d) = some ['s', Nat.digitChar d] := by decide
  have htHigh : ∀ d ≤ 9, ¬ d ≤ 7 → registerName (16 + d) = some ['t', Nat.digitChar d] := by decide
  rw [familyIndex] at h
  split_ifs at h <;> cases h <;> subst letter
  · exact hv d ‹_›
  · exact ha d ‹_›
  · exact htLow d ‹_›
  · exact htHigh d ‹_› ‹_›
  · exact hs d ‹_›

theorem nameIndex_eq_some_iff {x : Token} {n : Nat} : nameIndex x = some n ↔ registerName n = some x := by
  constructor
  · intro h
    unfold nameIndex at h
    split at h
    next ha => cases h; exact registerName_of_namedAlias ha
    next =>
      split at h
      next letter c =>
        split_ifs at h with hc
        rw [registerName_of_familyIndex h, digitChar_digitValue hc]
      next => cases h
  · intro h
    have hback : ∀ n < 32, ∀ x ∈ registerName n, nameIndex x = some n := by decide
    exact hback n (lt_of_registerName h) x h

theorem regindex_dollar_eq_ok_iff {x : Token} {i : Idx5} :
    regindex ('$' :: x) = .ok i ↔ registerName i.toNat = some x := by
  simp only [regindex_dollar, nameIndex_eq_some_iff]
  constructor
  · rintro ⟨n, hn, rfl⟩
    rwa [BitVec.toNat_ofNat, Nat.mod_eq_of_lt (lt_of_registerName hn)]
  · exact fun h => ⟨i.toNat, h, by simp⟩

/-- Settles O52: bare literals reach every index, and a `$` name is the one `registerName` gives its index. -/
theorem registerNamingImageAndInjectivity : Obligations.RegisterNamingImageAndInjectivity := by
  refine ⟨fun i => ⟨_, regindex_toDigits i⟩, fun x y i hx hy => ?_, fun i => ?_⟩
  · rw [regindex_dollar_eq_ok_iff] at hx hy
    exact Option.some.inj (hx.symm.trans hy)
  · have hnamed : ∀ i : Idx5, (registerName i.toNat).isSome = true ↔ i ≠ 26#5 ∧ i ≠ 27#5 := by decide
    simp only [regindex_dollar_eq_ok_iff, ← Option.isSome_iff_exists, hnamed]

end Sys2Proof.Machine

/-! The statements of 42_assembler_forms.md: arity, the argument forms of the minimum catalog, label addresses. -/

namespace Sys2Proof.Machine

/-! ### Arity (R185, R193) -/

section Arity

variable (funct opcode : Six) (shamt : Idx5) (n : Nat)

@[simp] theorem arityOk_rdRsRt : arityOk (.r funct shamt .rdRsRt) n = true ↔ n = 3 := beq_iff_eq
@[simp] theorem arityOk_rdRtShamt : arityOk (.r funct shamt .rdRtShamt) n = true ↔ n = 3 := beq_iff_eq
@[simp] theorem arityOk_rtImm : arityOk (.i opcode .rtImm) n = true ↔ n = 2 := beq_iff_eq
@[simp] theorem arityOk_rtRsImm : arityOk (.i opcode .rtRsImm) n = true ↔ n = 3 := beq_iff_eq
@[simp] theorem arityOk_rtImmRs : arityOk (.i opcode .rtImmRs) n = true ↔ n = 3 ∨ n = 2 := by simp [arityOk]
@[simp] theorem arityOk_rsRtLabel : arityOk (.i opcode .rsRtLabel) n = true ↔ n = 3 := beq_iff_eq
@[simp] theorem arityOk_label : arityOk (.j opcode) n = true ↔ n = 1 := beq_iff_eq

end Arity

/-- Every form but the load/store form expects one count (R193). -/
theorem arityOk_unique {d : Descriptor} {n k : Nat} (hd : ∀ o, d ≠ .i o .rtImmRs) (hn : arityOk d n = true)
    (hk : arityOk d k = true) : n = k := by
  match d with
  | .r _ _ .rdRsRt | .r _ _ .rdRtShamt | .i _ .rtImm | .i _ .rsRtLabel | .i _ .rtRsImm | .j _ =>
    simp only [arityOk_rdRsRt, arityOk_rdRtShamt, arityOk_rtImm, arityOk_rsRtLabel, arityOk_rtRsImm,
      arityOk_label] at hn hk
    exact hn.trans hk.symm
  | .i o .rtImmRs => exact absurd rfl (hd o)

/-! ### Where `ArityMismatch` cannot arise: resolving an operand and packing a word -/

/-- A result that is not refused for its operand count. -/
def ArityFree {α : Type} (r : Except AsmCondition α) : Prop := ∀ x n, r ≠ .error (.arityMismatch x n)

theorem ArityFree.ok {α : Type} (a : α) : ArityFree (.ok a) := nofun

theorem ArityFree.bind {α β : Type} {r : Except AsmCondition α} {f : α → Except AsmCondition β} (hr : ArityFree r)
    (hf : ∀ a, ArityFree (f a)) : ArityFree (r >>= f) := by
  cases r with
  | ok a => exact hf a
  | error e => exact fun x n h => hr x n (congrArg Except.error (Except.error.inj h))

theorem regindex_arityFree {t : Token} : ArityFree (regindex t) := by
  intro x n h
  obtain ⟨-, -, he⟩ | he := regindex_error_cases h <;> cases he

theorem labelAddress_arityFree {labels : LabelTable} {l : Token} : ArityFree (labelAddress labels l) := by
  unfold labelAddress
  split <;> nofun

theorem branchImm_arityFree {target cur : Word} : ArityFree (branchImm target cur) := by
  unfold branchImm
  dsimp only
  split <;> nofun

theorem shamtValue_arityFree {n : Nat} : ArityFree (shamtValue n) := by
  unfold shamtValue
  split <;> nofun

theorem maskField_arityFree {f : Field} {v : Word} : ArityFree (maskField f v) := by
  rw [maskField_eq]
  split <;> nofun

theorem placed_arityFree {f : Field} {o : Option Word} : ArityFree (placed f o) := by
  cases o with
  | none => exact ArityFree.ok _
  | some v =>
    rw [placed]
    split
    · exact ArityFree.ok _
    · next he => exact fun x n h => maskField_arityFree x n (he.trans h)

theorem placedTarget_arityFree {o : Option Word} : ArityFree (placedTarget o) := by
  cases o with
  | none => exact ArityFree.ok _
  | some a =>
    rw [placedTarget]
    split
    · exact ArityFree.ok _
    · next he => exact fun x n h => maskField_arityFree x n (he.trans h)

theorem pack_arityFree {p : PackFields} : ArityFree (pack p) :=
  placed_arityFree.bind fun _ => placed_arityFree.bind fun _ => placed_arityFree.bind fun _ =>
    placed_arityFree.bind fun _ => placed_arityFree.bind fun _ => placed_arityFree.bind fun _ =>
      placedTarget_arityFree.bind fun _ => ArityFree.ok _

section Forms

variable {fe : FrontEnd} {labels : LabelTable} {cur : Word} {funct opcode : Six} {shamt : Idx5} {imm : Half}
  {a0 a1 a2 : Token}

theorem encodeRdRsRt_arityFree : ArityFree (encodeRdRsRt funct shamt a0 a1 a2) :=
  regindex_arityFree.bind fun _ => regindex_arityFree.bind fun _ => regindex_arityFree.bind fun _ =>
    pack_arityFree

theorem encodeRdRtShamt_arityFree : ArityFree (encodeRdRtShamt fe funct a0 a1 a2) :=
  regindex_arityFree.bind fun _ => regindex_arityFree.bind fun _ => shamtValue_arityFree.bind fun _ =>
    pack_arityFree

theorem encodeRtImm_arityFree : ArityFree (encodeRtImm fe opcode a0 a1) :=
  regindex_arityFree.bind fun _ => pack_arityFree

theorem encodeRtRsImm_arityFree : ArityFree (encodeRtRsImm fe opcode a0 a1 a2) :=
  regindex_arityFree.bind fun _ => regindex_arityFree.bind fun _ => pack_arityFree

theorem encodeRtImmRs_arityFree : ArityFree (encodeRtImmRs opcode a0 imm a2) :=
  regindex_arityFree.bind fun _ => regindex_arityFree.bind fun _ => pack_arityFree

theorem encodeRsRtLabel_arityFree : ArityFree (encodeRsRtLabel labels cur opcode a0 a1 a2) :=
  regindex_arityFree.bind fun _ => regindex_arityFree.bind fun _ =>
    labelAddress_arityFree.bind fun _ => branchImm_arityFree.bind fun _ => pack_arityFree

theorem encodeLabel_arityFree : ArityFree (encodeLabel labels opcode a0) :=
  labelAddress_arityFree.bind fun _ => pack_arityFree

end Forms

section EncodeForm

variable {fe : FrontEnd} {c : Catalog} {labels : LabelTable} {cur : Word} {m : Token} {d : Descriptor}
  {args : List Token}

/-- A count that is not expected is refused before any operand is looked at (R185). -/
theorem encodeForm_of_not_arityOk (h : ¬ arityOk d args.length = true) :
    encodeForm fe labels cur m d args = .error (.arityMismatch m args.length) := by
  unfold encodeForm
  split
  case h_9 => rfl
  all_goals exact absurd rfl h

/-- An expected count fixes the operands' list, and with it the form's own equation (R185). -/
theorem encodeForm_arityFree (h : arityOk d args.length = true) : ArityFree (encodeForm fe labels cur m d args) := by
  match d with
  | .r _ _ .rdRsRt =>
    obtain ⟨a0, a1, a2, rfl⟩ := List.length_eq_three.1 ((arityOk_rdRsRt ..).1 h)
    exact encodeRdRsRt_arityFree
  | .r _ _ .rdRtShamt =>
    obtain ⟨a0, a1, a2, rfl⟩ := List.length_eq_three.1 ((arityOk_rdRtShamt ..).1 h)
    exact encodeRdRtShamt_arityFree
  | .i _ .rtImm =>
    obtain ⟨a0, a1, rfl⟩ := List.length_eq_two.1 ((arityOk_rtImm ..).1 h)
    exact encodeRtImm_arityFree
  | .i _ .rtImmRs =>
    obtain h3 | h2 := (arityOk_rtImmRs ..).1 h
    · obtain ⟨a0, a1, a2, rfl⟩ := List.length_eq_three.1 h3
      exact encodeRtImmRs_arityFree
    · obtain ⟨a0, a1, rfl⟩ := List.length_eq_two.1 h2
      exact encodeRtImmRs_arityFree
  | .i _ .rsRtLabel =>
    obtain ⟨a0, a1, l, rfl⟩ := List.length_eq_three.1 ((arityOk_rsRtLabel ..).1 h)
    exact encodeRsRtLabel_arityFree
  | .i _ .rtRsImm =>
    obtain ⟨a0, a1, a2, rfl⟩ := List.length_eq_three.1 ((arityOk_rtRsImm ..).1 h)
    exact encodeRtRsImm_arityFree
  | .j _ =>
    obtain ⟨l, rfl⟩ := List.length_eq_one_iff.1 ((arityOk_label ..).1 h)
    exact encodeLabel_arityFree

theorem encodeStatement_of_lookup_error {e : AsmCondition} (h : lookupMnemonic c m = .error e) :
    encodeStatement fe c labels cur m args = .error e := by
  rw [encodeStatement, h]

theorem encodeStatement_of_lookup (h : lookupMnemonic c m = .ok d) :
    encodeStatement fe c labels cur m args = encodeForm fe labels cur m d args := by
  rw [encodeStatement, h]

end EncodeForm

/-- Settles O54: lookup fails first, then the count, and no later check answers `ArityMismatch`. -/
theorem arityCheckedExactly : Obligations.ArityCheckedExactly := by
  refine ⟨fun funct opcode shamt n => ⟨arityOk_rdRsRt .., arityOk_rdRtShamt .., arityOk_rtImm .., arityOk_rtRsImm ..,
    arityOk_rtImmRs .., arityOk_rsRtLabel .., arityOk_label ..⟩, fun fe c labels cur m args =>
    ⟨fun e => encodeStatement_of_lookup_error, fun d hd => ?_⟩⟩
  rw [encodeStatement_of_lookup hd]
  exact ⟨fun h => encodeForm_of_not_arityOk (ne_true_of_eq_false h), encodeForm_arityFree⟩

/-! ### The word of each form (R187 to R191) -/

section FormWords

variable {fe : FrontEnd} {labels : LabelTable} {cur target : Word} {funct opcode : Six} {shamt : Idx5} {imm : Half}
  {a0 a1 a2 l : Token} {i0 i1 i2 : Idx5}

theorem ok_bind {α β : Type} (a : α) (f : α → Except AsmCondition β) : (.ok a >>= f) = f a := rfl

theorem error_bind {α β : Type} (e : AsmCondition) (f : α → Except AsmCondition β) :
    (.error e >>= f) = .error e := rfl

/-- An unused register field is the index 0 (R184). -/
theorem regWord_zero : regWord 0#5 = 0#32 := rfl

theorem regWord_lt (i : Idx5) : (regWord i).toNat < 32 := toNat_setWidth_lt (by decide) i

theorem sixWord_lt (v : Six) : (sixWord v).toNat < 64 := toNat_setWidth_lt (by decide) v

theorem packR_regWord (rs rt rd sh : Idx5) (fn : Six) :
    packR (regWord rs) (regWord rt) (regWord rd) (regWord sh) (sixWord fn) = .ok (wordR rs rt rd sh fn) := by
  rw [packR_ok (regWord_lt rs) (regWord_lt rt) (regWord_lt rd) (regWord_lt sh) (sixWord_lt fn)]
  simp [regWord, sixWord]

theorem packI_regWord (op : Six) (rs rt : Idx5) (imm : Half) :
    packI (sixWord op) (regWord rs) (regWord rt) imm = .ok (wordI op rs rt imm) := by
  rw [packI_ok (sixWord_lt op) (regWord_lt rs) (regWord_lt rt)]
  simp [regWord, sixWord]

theorem packJ_sixWord (op : Six) (a : Word) : packJ (sixWord op) a = .ok (wordJ op (a.extractLsb' 2 26)) := by
  rw [packJ_ok (sixWord_lt op)]
  simp [sixWord]

theorem encodeRdRsRt_ok (h0 : regindex a0 = .ok i0) (h1 : regindex a1 = .ok i1) (h2 : regindex a2 = .ok i2) :
    encodeRdRsRt funct shamt a0 a1 a2 = .ok (wordR i1 i2 i0 shamt funct) := by
  simp only [encodeRdRsRt, h0, h1, h2, ok_bind, packR_regWord]

/-- A shift amount in range is the index of that value (R188). -/
theorem shamtValue_of_lt {n : Nat} (h : n < 32) : shamtValue n = .ok (regWord (BitVec.ofNat 5 n)) := by
  rw [shamtValue, if_pos (by omega), regWord, BitVec.setWidth_ofNat_of_le_of_lt (by decide) h]

/-- A shift amount past 31 that a word holds is refused by the field's check (R188). -/
theorem packR_shamt_overflow {n : Nat} (hlo : 32 ≤ n) (hhi : n < 2 ^ 32) (rt rd : Idx5) (fn : Six) :
    packR 0#32 (regWord rt) (regWord rd) (BitVec.ofNat 32 n) (sixWord fn) = .error (.overflow n 5 (some .shamt)) := by
  have hv : (BitVec.ofNat 32 n).toNat = n := Nat.mod_eq_of_lt hhi
  obtain ⟨-, -, -, hshamt, -⟩ := packRReportsFirstOverflow.1 0#32 (regWord rt) (regWord rd) (.ofNat 32 n) (sixWord fn)
  rw [hv] at hshamt
  exact hshamt (by decide) (regWord_lt rt) (regWord_lt rd) hlo

theorem encodeRdRtShamt_ok (h0 : regindex a0 = .ok i0) (h1 : regindex a1 = .ok i1) (h : fe.number a2 < 32) :
    encodeRdRtShamt fe funct a0 a1 a2 = .ok (wordR 0#5 i1 i0 (BitVec.ofNat 5 (fe.number a2)) funct) := by
  rw [encodeRdRtShamt, h0, h1, shamtValue_of_lt h, ok_bind, ok_bind, ok_bind, ← regWord_zero, packR_regWord]

/-- A shift amount past 31 is refused with its number, by the field's check or, past 32 bits, before it (R188). -/
theorem encodeRdRtShamt_overflow (h0 : regindex a0 = .ok i0) (h1 : regindex a1 = .ok i1) (h : 32 ≤ fe.number a2) :
    encodeRdRtShamt fe funct a0 a1 a2 = .error (.overflow (fe.number a2) 5 (some .shamt)) := by
  simp only [encodeRdRtShamt, h0, h1, ok_bind]
  by_cases hw : fe.number a2 < 2 ^ 32
  · rw [shamtValue, if_pos hw, ok_bind, packR_shamt_overflow h hw]
  · rw [shamtValue, if_neg hw, error_bind]

theorem encodeRtImm_ok (h0 : regindex a0 = .ok i0) :
    encodeRtImm fe opcode a0 a1 = .ok (wordI opcode 0#5 i0 (fe.immediate a1)) := by
  simp only [encodeRtImm, h0, ok_bind, ← regWord_zero, packI_regWord]

theorem encodeRtRsImm_ok (h0 : regindex a0 = .ok i0) (h1 : regindex a1 = .ok i1) :
    encodeRtRsImm fe opcode a0 a1 a2 = .ok (wordI opcode i1 i0 (fe.immediate a2)) := by
  simp only [encodeRtRsImm, h0, h1, ok_bind, packI_regWord]

theorem encodeRtImmRs_ok (h0 : regindex a0 = .ok i0) (h1 : regindex a1 = .ok i1) :
    encodeRtImmRs opcode a0 imm a1 = .ok (wordI opcode i1 i0 imm) := by
  simp only [encodeRtImmRs, h0, h1, ok_bind, packI_regWord]

/-! ### Branches and jumps (R194, R195, R196) -/

theorem labelAddress_of_lookup (h : labels.lookup l = some target) : labelAddress labels l = .ok target := by
  rw [labelAddress, h]

theorem labelAddress_of_undeclared (h : labels.lookup l = none) :
    labelAddress labels l = .error (.undeclaredLabel l) := by
  rw [labelAddress, h]

/-- A distance in range is the signed value of the immediate (R195). -/
theorem branchImm_of_range (hlo : -32768 ≤ (target.toNat - cur.toNat : Int))
    (hhi : (target.toNat - cur.toNat : Int) ≤ 32767) :
    ∃ imm, branchImm target cur = .ok imm ∧ imm.toInt = (target.toNat - cur.toNat : Int) :=
  ⟨_, if_pos ⟨hlo, hhi⟩, BitVec.toInt_ofInt_eq_self (by decide) hlo (Int.lt_add_one_of_le hhi)⟩

theorem branchImm_overflow
    (h : (target.toNat - cur.toNat : Int) < -32768 ∨ 32767 < (target.toNat - cur.toNat : Int)) :
    branchImm target cur = .error (.overflow (target.toNat - cur.toNat : Int) 16 (some .imm)) :=
  if_neg fun ⟨hlo, hhi⟩ => h.elim (not_lt.2 hlo) (not_lt.2 hhi)

theorem encodeRsRtLabel_ok (h0 : regindex a0 = .ok i0) (h1 : regindex a1 = .ok i1)
    (hl : labels.lookup l = some target) (hb : branchImm target cur = .ok imm) :
    encodeRsRtLabel labels cur opcode a0 a1 l = .ok (wordI opcode i0 i1 imm) := by
  simp only [encodeRsRtLabel, h0, h1, labelAddress_of_lookup hl, hb, ok_bind, packI_regWord]

theorem encodeRsRtLabel_branchImm_error {e : AsmCondition} (h0 : regindex a0 = .ok i0) (h1 : regindex a1 = .ok i1)
    (hl : labels.lookup l = some target) (hb : branchImm target cur = .error e) :
    encodeRsRtLabel labels cur opcode a0 a1 l = .error e := by
  simp only [encodeRsRtLabel, h0, h1, labelAddress_of_lookup hl, hb, ok_bind, error_bind]

theorem encodeRsRtLabel_undeclared (h0 : regindex a0 = .ok i0) (h1 : regindex a1 = .ok i1)
    (hl : labels.lookup l = none) : encodeRsRtLabel labels cur opcode a0 a1 l = .error (.undeclaredLabel l) := by
  simp only [encodeRsRtLabel, h0, h1, labelAddress_of_undeclared hl, ok_bind, error_bind]

/-- Bits 27:2 of an address as a number (R136, R99). -/
theorem extractLsb'_two_eq_ofNat (a : Word) : a.extractLsb' 2 26 = BitVec.ofNat 26 (a.toNat % 2 ^ 28 / 4) := by
  apply BitVec.eq_of_toNat_eq
  rw [BitVec.extractLsb'_toNat, Nat.shiftRight_eq_div_pow, BitVec.toNat_ofNat]
  omega

theorem encodeLabel_ok (hl : labels.lookup l = some target) :
    encodeLabel labels opcode l = .ok (wordJ opcode (BitVec.ofNat 26 (target.toNat % 2 ^ 28 / 4))) := by
  simp only [encodeLabel, labelAddress_of_lookup hl, ok_bind, packJ_sixWord, extractLsb'_two_eq_ofNat]

theorem encodeLabel_undeclared (hl : labels.lookup l = none) :
    encodeLabel labels opcode l = .error (.undeclaredLabel l) := by
  rw [encodeLabel, labelAddress_of_undeclared hl, error_bind]

end FormWords

/-- Settles O55: both counts reach the one encoder of the load/store form, and every other form has one count. -/
theorem zeroOffsetFormDefaultsImmediate : Obligations.ZeroOffsetFormDefaultsImmediate := by
  refine fun fe labels cur m op => ⟨fun a0 a1 z hz => ?_, fun a0 a1 rt rs h0 h1 => encodeRtImmRs_ok h0 h1,
    fun args h2 h3 => encodeForm_of_not_arityOk ?_, fun d n k => arityOk_unique⟩
  · exact congrArg (encodeRtImmRs op a0 · a1) hz.symm
  · rw [arityOk_rtImmRs, not_or]
    exact ⟨h3, h2⟩

/-- Settles O56: each mnemonic's row of the catalog selects a form, whose word is the encoder's. -/
theorem assembledStatementIsEncodedInstruction : Obligations.AssembledStatementIsEncodedInstruction :=
  fun _ _ _ _ _ _ _ _ _ h0 h1 =>
  ⟨fun h2 => ⟨encodeRdRsRt_ok h0 h1 h2, encodeRdRsRt_ok h0 h1 h2, encodeRdRsRt_ok h0 h1 h2⟩,
    fun hlt => ⟨encodeRdRtShamt_ok h0 h1 hlt, encodeRdRtShamt_ok h0 h1 hlt⟩,
    fun hle => ⟨encodeRdRtShamt_overflow h0 h1 hle, encodeRdRtShamt_overflow h0 h1 hle⟩,
    encodeRtRsImm_ok h0 h1, encodeRtImm_ok h0, encodeRtImmRs_ok h0 h1⟩

/-- Settles O57: the rows `beq` and `j` select the label forms, by the label's lookup and the distance's range. -/
theorem branchAndJumpTargets : Obligations.BranchAndJumpTargets := by
  refine fun fe labels cur target a0 a1 l i0 i1 h0 h1 => ⟨fun hl hlo hhi => ?_, fun hl h => ?_, encodeLabel_ok,
    fun hl => ⟨encodeRsRtLabel_undeclared h0 h1 hl, encodeLabel_undeclared hl⟩⟩
  · obtain ⟨imm, hb, hv⟩ := branchImm_of_range hlo hhi
    exact ⟨imm, encodeRsRtLabel_ok h0 h1 hl hb, hv⟩
  · exact encodeRsRtLabel_branchImm_error h0 h1 hl (branchImm_overflow h)

/-! ### Label addresses (R197) -/

section LabelAddresses

variable {labels out : LabelTable} {k : Nat} {cur a : Word} {l : Token} {ns before after : List Node}

/-- Pass 1 keeps every entry of the table it starts from. -/
theorem pass1_keeps_lookup (h : pass1 labels k cur ns = .ok out) (hl : labels.lookup l = some a) :
    out.lookup l = some a := by
  induction ns generalizing labels k cur with
  | nil => cases h; exact hl
  | cons x ns ih =>
    cases x with
    | label n => exact ih (pass1_label_ok.1 h).2 (by rw [List.lookup_append, hl, Option.some_or])
    | directive n args => exact ih (pass1_directive_ok.1 h).2 hl
    | instr m args => exact ih (pass1_instr ▸ h) hl

/-- A label's entry is the counter at its declaration, past the instruction statements before it. -/
theorem pass1_lookup_label (h : pass1 labels k cur (before ++ .label l :: after) = .ok out) :
    out.lookup l = some (cur + BitVec.ofNat 32 (4 * instrCount before)) := by
  induction before generalizing labels k cur with
  | nil =>
    obtain ⟨hl, h⟩ := pass1_label_ok.1 h
    refine pass1_keeps_lookup h ?_
    simp [List.lookup_append, hl, instrCount]
  | cons x before ih =>
    cases x with
    | label n => exact ih (pass1_label_ok.1 h).2
    | directive n args => exact ih (pass1_directive_ok.1 h).2
    | instr m args =>
      rw [ih (pass1_instr ▸ h), nextAddress, instrCount, Nat.mul_add_one, Nat.add_comm, BitVec.ofNat_add,
        BitVec.add_assoc]

end LabelAddresses

/-- Settles O58 by induction on the statements before the label. -/
theorem labelAddressCountsInstructions : Obligations.LabelAddressCountsInstructions :=
  fun _ _ _ _ _ => pass1_lookup_label

end Sys2Proof.Machine

/-! The statements of 43_decode_dispatch.md: the fetch, the dispatch, the whole step and runs of it. -/

namespace Sys2Proof.Machine

/-! ### The word at `pc` (R58, R64, R212) -/

/-- A word can be read when its four bytes can, and it is composed of them. -/
theorem peekWord_eq_some_iff {m : Memory} {a : Nat} {w : Word} : peekWord m a = some w ↔
    ∃ b : Nat → Byte, (∀ j, j < 4 → peekByte m (a + j) = some (b j)) ∧ loadWord (b 0) (b 1) (b 2) (b 3) = w := by
  constructor
  · intro h
    unfold peekWord at h
    split at h
    · rename_i b0 b1 b2 b3 h0 h1 h2 h3
      refine ⟨fun j => [b0, b1, b2, b3].getD j 0#8, fun j hj => ?_, Option.some.inj h⟩
      interval_cases j
      exacts [h0, h1, h2, h3]
    · cases h
  · rintro ⟨b, hb, rfl⟩
    have h0 := hb 0 (by omega)
    rw [Nat.add_zero] at h0
    simp only [peekWord, h0, hb 1 (by omega), hb 2 (by omega), hb 3 (by omega)]

/-- The fetch's byte order and that of word reads spell the same number (D6, D7). -/
theorem natOfBytes_memOrder_eq_loadWord (b0 b1 b2 b3 : Byte) :
    natOfBytes Config.memOrder [b0, b1, b2, b3] = (loadWord b0 b1 b2 b3).toNat := by
  rw [toNat_loadWord]
  simp only [natOfBytes, Config.memOrder, natOfBytesLE]
  omega

/-- The fetched word is what `MemRead(pc, 4)` reads. -/
theorem memRead_word_of_peekWord {a w : Word} {s : State} (h : peekWord s.regions a.toNat = some w) :
    memRead a .word s =
      .done w.toNat { s with uninitSeen := s.uninitSeen || anyUninit s.regions a.toNat 4 } := by
  obtain ⟨b, hb, rfl⟩ := peekWord_eq_some_iff.1 h
  rw [memRead, Width.bytes, readBytes_peek hb, ← natOfBytes_memOrder_eq_loadWord]
  rfl

/-- Mapped-uninitialized bytes are read as the word 0 (R56, D20). -/
theorem peekWord_uninitialized {m : Memory} {a : Nat} (h : ∀ j, j < 4 → byteAt m (a + j) = .uninitialized) :
    peekWord m a = some 0#32 :=
  peekWord_eq_some_iff.2 ⟨fun _ => 0#8, fun j hj => by simp [peekByte, h j hj], by decide⟩

theorem anyUninit_of_first {m : Memory} {a n : Nat} (h : byteAt m a = .uninitialized) :
    anyUninit m a (n + 1) = true := by
  simp [anyUninit_succ, h]

/-! ### Dispatch (R214, R215) -/

/-- An instruction the engine does not execute raises the fatal condition with its own word (log entry 7). -/
theorem raisesUnimplemented_of_not_executes {i : Instr} (hi : i.executes = false) (s : State) :
    RaisesUnimplemented i s := by
  obtain ⟨hx, -⟩ | ⟨-, hx⟩ := exec_cases i s
  · rw [hi] at hx; cases hx
  · exact ⟨_, hx, rfl, fun _ => rfl, rfl, rfl, rfl, rfl, rfl, rfl, fun _ => rfl⟩

/-- Settles O8: `lw`, `beq` and `j` are the instructions the engine does not execute. -/
theorem encodeOnlyInstructionsRaiseUnimplemented : Obligations.EncodeOnlyInstructionsRaiseUnimplemented :=
  ⟨fun _ _ _ => raisesUnimplemented_of_not_executes rfl, fun _ _ _ => raisesUnimplemented_of_not_executes rfl,
    fun _ => raisesUnimplemented_of_not_executes rfl⟩

/-- A step on a word the model's decoder reads, an encode-only one too. -/
theorem step_of_decodeWord {s : State} {w : Word} {i : Instr} (hs : s.halt = none)
    (hw : peekWord s.regions s.pc.toNat = some w) (hd : decodeWord w = .ok i) : step s = exec i (afterFetch s) := by
  simp [step, hs, fetch_of_peekWord hw, hd]

/-- Settles O11: the record of the statement is the state after the fetch. -/
theorem stepRunsTheDecodedInstruction : Obligations.StepRunsTheDecodedInstruction :=
  fun _ _ _ hs hw hd _ => step_of_decodeWord hs hw hd

/-! ### The ends of a step (R211, R212, R213, R215, R219) -/

/-- Settles O13: of the ends of a step the two fatal ones set `halt`, and the third is one register write after the
fetch. -/
theorem successfulStepChangesExactly : Obligations.SuccessfulStepChangesExactly := by
  intro s t h ht
  obtain ⟨-, ⟨j, -, -, -, rfl⟩ | ⟨w, -, -, rfl⟩ | ⟨w, i, d, v, -, -, -, rfl⟩⟩ := step_next_cases h
  · cases ht
  · cases ht
  · exact ⟨rfl, ⟨d, fun k hk => readReg_writeReg_other _ v hk⟩, rfl, rfl, rfl, rfl, rfl, fun _ => rfl⟩

/-- Settles O15: the step leaves the state of the failed fetch with the mark of its address. -/
theorem fetchOfUnmappedByteHalts : Obligations.FetchOfUnmappedByteHalts :=
  fun s j hs hj hu hm =>
    ⟨haltedOnFetch j s, step_of_first_unmapped hs hj hu hm, rfl, rfl, fun _ => rfl, rfl, rfl, rfl, rfl, rfl⟩

/-- Settles O16: after the fetch only the mark changes. -/
theorem unimplementedWordHalts : Obligations.UnimplementedWordHalts :=
  fun _ _ hs hw hd => ⟨_, step_of_not_selected hs hw hd, rfl, fun _ => rfl, rfl, rfl, rfl, rfl, fun _ => rfl⟩

/-- Writing back what a register holds changes nothing. -/
theorem writeReg_readReg_self (i : Idx5) (s : State) : writeReg i (readReg i s) s = s := by
  simp [writeReg, readReg]

/-- The word 0 is `sll 0, 0, 0`, the no-operation (R111), whatever register 0 holds. -/
theorem exec_sll_zero (s : State) : exec (.sll 0#5 0#5 0#5) s = .next s := by
  rw [exec_sll, BitVec.toNat_ofNat, Nat.zero_mod, BitVec.shiftLeft_zero, writeReg_readReg_self]

/-- Settles O18: the bytes read as the word 0, which is the no-operation. -/
theorem uninitializedWordIsNoOperation : Obligations.UninitializedWordIsNoOperation := by
  intro s hs hu
  have hd : engineDecode 0#32 = some (.sll 0#5 0#5 0#5) := by decide
  have hmark : anyUninit s.regions s.pc.toNat 4 = true := anyUninit_of_first (hu 0 (by omega))
  rw [step_of_selected hs (peekWord_uninitialized hu) hd, exec_sll_zero, afterFetch, hmark, Bool.or_true]
  rfl

/-! ### The whole-step rule (R219) -/

/-- The next state an outcome answers, if it answers one. -/
def nextState? : Result → Option State
  | .next t => some t
  | .fault _ => none
  | .refused _ => none

theorem nextState?_eq_some_iff {r : Result} {t : State} : nextState? r = some t ↔ r = .next t := by
  cases r <;> simp [nextState?]

theorem ruleStep_halted {s : State} {r : HaltReason} (h : s.halt = some r) : ruleStep s = none := by
  simp [ruleStep, h]

theorem ruleStep_of_first_unmapped {s : State} {j : Nat} (hs : s.halt = none) (hj : j < 4)
    (hu : byteAt s.regions (s.pc.toNat + j) = .unmapped)
    (hm : ∀ l, l < j → byteAt s.regions (s.pc.toNat + l) ≠ .unmapped) : ruleStep s = some (haltedOnFetch j s) := by
  rw [ruleStep, hs, memReadFailsAtFirstUnmappedByte s.pc .word s j hj hu hm]
  rfl

theorem ruleStep_of_not_selected {s : State} {w : Word} (hs : s.halt = none)
    (hw : peekWord s.regions s.pc.toNat = some w) (hd : engineDecode w = none) :
    ruleStep s = some (markHalt (.unimplementedInstruction w s.pc) (afterFetch s)) := by
  rw [ruleStep, hs, memRead_word_of_peekWord hw]
  simp only [BitVec.ofNat_toNat, BitVec.setWidth_eq, hd]
  rfl

/-- `v << shamt` is the rule's product (R230). -/
theorem shiftLeft_eq_ofNat_mul (v : Word) (k : Nat) : v <<< k = BitVec.ofNat 32 (v.toNat * 2 ^ k) := by
  refine BitVec.eq_of_toNat_eq ?_
  rw [BitVec.toNat_ofNat, BitVec.toNat_shiftLeft, Nat.shiftLeft_eq]

/-- `v >> shamt` is the rule's quotient (R231). -/
theorem ushiftRight_eq_ofNat_div (v : Word) (k : Nat) : v >>> k = BitVec.ofNat 32 (v.toNat / 2 ^ k) := by
  refine BitVec.eq_of_toNat_eq ?_
  rw [BitVec.toNat_ofNat, BitVec.toNat_ushiftRight, Nat.shiftRight_eq_div_pow,
    Nat.mod_eq_of_lt ((Nat.div_le_self _ _).trans_lt v.isLt)]

/-- On a selected word the rule's expression for the operation is what the instruction does. -/
theorem ruleStep_of_selected {s : State} {w : Word} {i : Instr} (hs : s.halt = none)
    (hw : peekWord s.regions s.pc.toNat = some w) (hd : engineDecode w = some i) :
    ruleStep s = nextState? (exec i (afterFetch s)) := by
  have hx := engineDecode_executes hd
  rw [ruleStep, hs, memRead_word_of_peekWord hw]
  simp only [BitVec.ofNat_toNat, BitVec.setWidth_eq, hd]
  cases i with
  | sll rd rt shamt => rw [exec_sll, shiftLeft_eq_ofNat_mul]; rfl
  | srl rd rt shamt => rw [exec_srl, ushiftRight_eq_ofNat_div]; rfl
  | add rd rs rt => rfl
  | sub rd rs rt => rfl
  | xor rd rs rt => rfl
  | ori rt rs imm => rfl
  | lui rt imm => rw [exec_lui]; rfl
  | lw rt imm rs => cases hx
  | beq rs rt imm => cases hx
  | j target => cases hx

/-- The rule answers what a step answers. -/
theorem ruleStep_eq_nextState? (s : State) : ruleStep s = nextState? (step s) := by
  obtain ⟨r, hr, h⟩ | ⟨hs, j, hj, hu, hm, h⟩ | ⟨hs, w, hw, hd, h⟩ | ⟨hs, w, i, d, v, hw, hd, h, -⟩ := step_cases s
  · rw [h, ruleStep_halted hr]; rfl
  · rw [h, ruleStep_of_first_unmapped hs hj hu hm]; rfl
  · rw [h, ruleStep_of_not_selected hs hw hd]; rfl
  · rw [h, ruleStep_of_selected hs hw hd]

/-- There is a step exactly while `halt` is not set (R211, D19). -/
theorem halt_eq_none_iff_exists_step (s : State) : s.halt = none ↔ ∃ t, step s = .next t := by
  refine ⟨fun hs => ?_, fun ⟨t, h⟩ => (step_next_cases h).1⟩
  obtain ⟨r, hr, -⟩ | ⟨-, j, -, -, -, h⟩ | ⟨-, w, -, -, h⟩ | ⟨-, w, i, d, v, -, -, -, h⟩ := step_cases s
  · rw [hs] at hr; cases hr
  · exact ⟨_, h⟩
  · exact ⟨_, h⟩
  · exact ⟨_, h⟩

/-- Settles O12: the rule answers what a step answers, and only a halted engine has no step. -/
theorem stepRefinesWholeStepRule : Obligations.StepRefinesWholeStepRule := by
  refine fun s => ⟨fun t => ?_, halt_eq_none_iff_exists_step s⟩
  rw [ruleStep_eq_nextState?, nextState?_eq_some_iff]

/-! ### Runs (R211, R220, D25) -/

theorem run_succ_of_fault {s : State} {r : Fault} (h : step s = .fault r) (n : Nat) :
    Sys2Proof.core.run (n + 1) s = .fault r := by
  have hc : Sys2Proof.core.step s = .fault r := h
  simp only [Host.Core.run, hc]

theorem run_succ_of_next {s u : State} (h : step s = .next u) (n : Nat) :
    Sys2Proof.core.run (n + 1) s = Sys2Proof.core.run n u := by
  have hc : Sys2Proof.core.step s = .next u := h
  simp only [Host.Core.run, hc]

/-- Settles O17: the first step of a run from a halted state is the fault. -/
theorem haltedEngineTakesNoStep : Obligations.HaltedEngineTakesNoStep :=
  fun _ _ h => ⟨step_halted h, run_succ_of_fault (step_halted h)⟩

/-- A successful run starts from an engine that is not halted. -/
theorem SuccessfulRun.halt_eq_none {n : Nat} {s t : State} (h : SuccessfulRun n s t) : s.halt = none := by
  obtain ⟨hr, ht⟩ := h
  cases n with
  | zero => cases hr; exact ht
  | succ n =>
    rcases Option.eq_none_or_eq_some s.halt with hs | ⟨r, hs⟩
    · exact hs
    · rw [run_succ_of_fault (step_halted hs)] at hr; cases hr

/-- A successful run of `n + 1` steps is a step that does not halt and a successful run of `n`. -/
theorem SuccessfulRun.first_step {n : Nat} {s t : State} (h : SuccessfulRun (n + 1) s t) :
    ∃ u, step s = .next u ∧ u.halt = none ∧ SuccessfulRun n u t := by
  obtain ⟨u, hu⟩ := (halt_eq_none_iff_exists_step s).1 h.halt_eq_none
  have hn : SuccessfulRun n u t := ⟨(run_succ_of_next hu n).symm.trans h.1, h.2⟩
  exact ⟨u, hu, hn.halt_eq_none, hn⟩

/-- Settles O25 by induction on the words before the unmapped byte: each step that does not halt comes one word
nearer, and the fetch at that byte halts. -/
theorem runPastMappedMemoryFails : Obligations.RunPastMappedMemoryFails := by
  rintro n k s hb hu hk ⟨t, hrun⟩
  obtain ⟨k, rfl⟩ : ∃ l, k = l + 1 := ⟨k - 1, by omega⟩
  induction n generalizing k s with
  | zero =>
    obtain ⟨u, hstep, hn, -⟩ := hrun.first_step
    have hhalt := step_of_first_unmapped (j := 0) hrun.halt_eq_none (by omega) hu (by omega)
    rw [hstep] at hhalt
    cases hhalt
    cases hn
  | succ n ih =>
    obtain ⟨u, hstep, hn, hrest⟩ := hrun.first_step
    obtain ⟨hpc, -, -, -, -, -, hreg, -⟩ := successfulStepChangesExactly s u hstep hn
    have hnext : u.pc.toNat + 4 * n = s.pc.toNat + 4 * (n + 1) := by
      rw [hpc, BitVec.toNat_add, BitVec.toNat_ofNat]
      omega
    obtain ⟨k, rfl⟩ : ∃ l, k = l + 1 := ⟨k - 1, by omega⟩
    exact ih u (hnext ▸ hb) (by rw [hreg, hnext]; exact hu) k (by omega) hrest

end Sys2Proof.Machine

/-! The statements of 44_rtype_ops.md: the result, the completion and the frame of the five R-type operations. -/

namespace Sys2Proof.Machine

/-- A register write keeps the frame of an operation (R219). -/
theorem sameExceptReg_writeReg (d : Idx5) (v : Word) (s : State) : SameExceptReg d s (writeReg d v s) :=
  ⟨fun _ hk => readReg_writeReg_other s v hk, rfl, rfl, rfl, rfl, rfl, rfl, rfl, fun _ => rfl⟩

/-- Settles O1: a shift left is the product with the power of two, wrapped to the word. -/
theorem sllWritesShiftedProduct : Obligations.SllWritesShiftedProduct := by
  refine fun rd rt shamt s => ⟨_, exec_sll rd rt shamt s, ?_, sameExceptReg_writeReg rd _ s⟩
  rw [readReg_writeReg_same, BitVec.toNat_shiftLeft, Nat.shiftLeft_eq]

/-- Settles O2: a logical shift right is the quotient by the power of two. -/
theorem srlWritesShiftedQuotient : Obligations.SrlWritesShiftedQuotient := by
  refine fun rd rt shamt s => ⟨_, exec_srl rd rt shamt s, ?_, sameExceptReg_writeReg rd _ s⟩
  rw [readReg_writeReg_same, BitVec.toNat_ushiftRight, Nat.shiftRight_eq_div_pow]

/-- Settles O3: the sum of words is the sum of their values, wrapped (D5). -/
theorem addWritesWrappedSum : Obligations.AddWritesWrappedSum := by
  refine fun rd rs rt s => ⟨_, exec_add rd rs rt s, ?_, sameExceptReg_writeReg rd _ s⟩
  rw [readReg_writeReg_same, BitVec.toNat_add]

/-- The difference of words has the value of the integer difference, wrapped; on naturals the library's lemma adds
`2 ^ 32` to avoid going below zero. -/
theorem toNat_sub_eq_emod (a b : Word) : ((a - b).toNat : Int) = (a.toNat - b.toNat : Int) % 2 ^ 32 := by
  have hb : b.toNat < 2 ^ 32 := b.isLt
  rw [BitVec.toNat_sub]
  omega

/-- Settles O4: the difference of words is the difference of their values, wrapped (D4, D5). -/
theorem subWritesWrappedDifference : Obligations.SubWritesWrappedDifference := by
  refine fun rd rs rt s => ⟨_, exec_sub rd rs rt s, ?_, sameExceptReg_writeReg rd _ s⟩
  rw [readReg_writeReg_same, toNat_sub_eq_emod]

/-- Settles O5: exclusive or acts on each bit by itself. -/
theorem xorWritesBitwiseXor : Obligations.XorWritesBitwiseXor := by
  refine fun rd rs rt s => ⟨_, exec_xor rd rs rt s, fun k _ => ?_, sameExceptReg_writeReg rd _ s⟩
  rw [readReg_writeReg_same, BitVec.getLsbD_xor]

end Sys2Proof.Machine

/-! The statements of 45_itype_ops.md: `ori`, `lui`, and the constant the pair builds. -/

namespace Sys2Proof.Machine

/-- Settles O6: a zero-extended half has nothing to or into the upper half. -/
theorem oriSetsLowHalfOnly : Obligations.OriSetsLowHalfOnly := by
  refine fun rt rs imm s => ⟨_, exec_ori rs rt imm s, ?_, fun k hk => ?_, sameExceptReg_writeReg rt _ s⟩
  · have himm : imm.toNat / 2 ^ 16 = 0 := Nat.div_eq_of_lt imm.isLt
    rw [readReg_writeReg_same, BitVec.toNat_or, BitVec.toNat_setWidth_of_le (by decide), Nat.or_div_two_pow, himm,
      Nat.or_zero]
  · have hk32 : k < 32 := by omega
    rw [readReg_writeReg_same, BitVec.getLsbD_or, BitVec.getLsbD_setWidth, decide_eq_true hk32, Bool.true_and]

/-- Settles O7: no bit of a half is lost when a word shifts it into its upper half. -/
theorem luiWritesUpperHalf : Obligations.LuiWritesUpperHalf := by
  refine fun rt imm s => ⟨_, exec_lui rt imm s, ?_, sameExceptReg_writeReg rt _ s⟩
  have himm : imm.toNat < 2 ^ 16 := imm.isLt
  rw [readReg_writeReg_same, BitVec.toNat_shiftLeft, BitVec.toNat_setWidth_of_le (by decide), Nat.shiftLeft_eq]
  omega

/-- Two halves joined: the first shifted into the upper half, the second or-ed in zero-extended (R252). -/
theorem append_eq_shiftLeft_or (hi lo : Half) :
    (hi ++ lo : BitVec (16 + 16)) = hi.setWidth 32 <<< 16 ||| lo.setWidth 32 := by
  rw [← BitVec.setWidth_append_eq_shiftLeft_setWidth_or, BitVec.setWidth_eq]

/-- Settles O10: `ori` reads back what `lui` wrote and ors the lower half into it; both write `rt` alone. -/
theorem luiThenOriBuildsConstant : Obligations.LuiThenOriBuildsConstant := by
  intro rt hi lo s t u hlui hori
  rw [exec_lui] at hlui
  cases hlui
  rw [exec_ori, readReg_writeReg_same, ← append_eq_shiftLeft_or] at hori
  cases hori
  exact ⟨readReg_writeReg_same .., fun k hk =>
    (readReg_writeReg_other _ _ hk).trans (readReg_writeReg_other _ _ hk)⟩

end Sys2Proof.Machine

/-! The statement of 46_encode_only.md: with no branch or jump executed, a successful run is a straight line. -/

namespace Sys2Proof.Machine

/-- Settles O24 by induction on the steps: each step that does not halt moves `pc` by 4, keeps what no step writes and
never clears `uninit_seen` (R36). -/
theorem successfulRunIsStraightLine : Obligations.SuccessfulRunIsStraightLine := by
  intro n s t hrun
  induction n generalizing s with
  | zero =>
    obtain ⟨hr, -⟩ := hrun
    cases hr
    exact ⟨(BitVec.add_zero _).symm, rfl, rfl, rfl, rfl, id⟩
  | succ n ih =>
    obtain ⟨u, hstep, hn, hrest⟩ := hrun.first_step
    obtain ⟨hpc, -, huninit, hfpr, hhi, hlo, hreg, -⟩ := successfulStepChangesExactly s u hstep hn
    obtain ⟨ipc, ireg, ifpr, ihi, ilo, iuninit⟩ := ih u hrest
    refine ⟨?_, ireg.trans hreg, ifpr.trans hfpr, ihi.trans hhi, ilo.trans hlo, fun hs => iuninit ?_⟩
    · rw [ipc, hpc, BitVec.add_assoc, ← BitVec.ofNat_add, Nat.mul_succ, Nat.add_comm 4]
    · rw [huninit, hs, Bool.true_or]

end Sys2Proof.Machine

/-! The statements of 60_exceptions.md: which steps are fatal, and that a failed host access is not. -/

namespace Sys2Proof.Machine

/-- Settles O14: of the ends of a step the two fatal ones are the two conditions, and under the third neither holds and
`halt` is still not set. -/
theorem fatalStepIffUnmappedOrUnimplemented : Obligations.FatalStepIffUnmappedOrUnimplemented := by
  intro s t h
  obtain ⟨hs, ⟨j, hj, hu, hm, rfl⟩ | ⟨w, hw, hd, rfl⟩ | ⟨w, i, d, v, hw, hd, -, rfl⟩⟩ := step_next_cases h
  · exact iff_of_true nofun (.inl (peekWord_eq_none.2 ⟨j, hj, hu, hm⟩))
  · exact iff_of_true nofun (.inr ⟨w, hw, hd⟩)
  · refine iff_of_false (not_not_intro hs) ?_
    simp [hw, hd]

/-- An address is unmapped when `map` finds no region for it (R52). -/
theorem byteAt_eq_unmapped_iff {m : Memory} {a : Nat} : byteAt m a = .unmapped ↔ mapAddr m a = none := by
  refine ⟨fun h => ?_, byteAt_of_mapAddr_none⟩
  cases hm : mapAddr m a with
  | none => rfl
  | some p =>
    obtain ⟨r, hr, -⟩ := mapAddr_spec hm
    rw [byteAt_of_mapAddr hm hr] at h
    unfold Region.byteAt at h
    split at h <;> cases h

/-- A byte write to an unmapped address raises the condition with that address (R62). -/
theorem writeByte_of_unmapped {a : Nat} {v : Byte} {s : State} (h : byteAt s.regions a = .unmapped) :
    writeByte a v s = .unknown a s := by
  obtain ⟨-, hw⟩ | ⟨i, k, hm, -⟩ := writeByte_cases a v s
  · exact hw
  · rw [byteAt_eq_unmapped_iff.1 h] at hm; cases hm

/-- Settles O36: both primitives fail, and a host action whose primitive failed keeps the state it started from (D19;
for the read's mark log entry 11). -/
theorem unmappedHostAccessHasNoEffect : Obligations.UnmappedHostAccessHasNoEffect := by
  refine ⟨fun a v s hu => ?_, fun a n s j hj hu => ?_⟩
  · have hw := writeByte_of_unmapped (v := v) hu
    exact ⟨hw, by rw [hostApply_writeMem, hw]; rfl⟩
  · obtain ⟨l, t, -, hr⟩ := memRead_of_unmapped hj hu
    rw [hostApply_readMem, hr]
    rfl

end Sys2Proof.Machine

/-! The statements of 70_reset_and_hazards.md: the state after reset, the premises of a launch, the load of an object
stream and the boot. -/

namespace Sys2Proof.Machine

/-! ### Reset and launch (R300, D15, D32, U9) -/

/-- Settles O27: the visible parts of the state after reset are the parameters, and those of `f`, `hi` and `lo` are not
among them. -/
theorem resetFollowsParameters : Obligations.ResetFollowsParameters :=
  fun p => ⟨resetWith_pc p, resetWith_halt p, resetWith_uninitSeen p, fun _ => rfl, resetWith_regions p,
    fun _ _ _ => ⟨rfl, rfl, rfl, rfl⟩⟩

/-- Two regions are disjoint when no address lies in both: if they meet, the higher of the two bases does. -/
theorem Region.disjoint_iff {r q : Region} :
    r.disjoint q = true ↔ ¬ ∃ a, r.contains a = true ∧ q.contains a = true := by
  constructor
  · rintro h ⟨a, hr, hq⟩
    rw [Region.not_contains_of_disjoint h hq] at hr
    cases hr
  · intro h
    by_contra hd
    simp only [Region.disjoint, decide_eq_true_eq] at hd
    refine h ⟨max r.base.toNat q.base.toNat, ?_, ?_⟩ <;> rw [Region.contains_iff] <;> omega

/-- The check of R304 compares each region with every later one. -/
theorem Memory.disjoint_iff_pairwise {m : Memory} :
    Memory.disjoint m = true ↔ m.Pairwise fun r q => r.disjoint q = true := by
  induction m with
  | nil => simp [Memory.disjoint]
  | cons r m ih => simp [Memory.disjoint, ih]

/-- The premises on a launch (D15, D32, U9). -/
theorem Params.ok_iff {p : Params} : p.ok = true ↔
    Memory.wf p.regionsInit = true ∧ Memory.disjoint p.regionsInit = true ∧
      ∃ r ∈ p.regionsInit, r.contains p.textBase.toNat = true := by
  simp [Params.ok, and_assoc]

/-- A launch is granted under its premises, and it is reset (log entry 4). -/
theorem launch_eq_some_iff {p : Params} {s : State} : launch p = some s ↔ s = State.resetWith p ∧ p.ok = true := by
  unfold launch
  split <;> simp [*, eq_comm]

/-- Settles O28: disjointness, the one premise the launch checks in another form, is that no address is shared. -/
theorem launchGrantedIffRegionsSound : Obligations.LaunchGrantedIffRegionsSound := by
  intro p s
  rw [launch_eq_some_iff, Params.ok_iff, Memory.disjoint_iff_pairwise]
  simp only [Region.disjoint_iff]

/-! ### Loading an object stream (R143, R303) -/

theorem emitWord_getElem? {j : Nat} (w : Word) (hj : j < 4) : (emitWord w)[j]? = some (byteOf w j) := by
  interval_cases j <;> rfl

/-- The bytes of word `i` stand in the object stream from byte `4 * i` on. -/
theorem objectStream_getElem? {ws : List Word} {i j : Nat} {w : Word} (h : ws[i]? = some w) (hj : j < 4) :
    (objectStream ws)[4 * i + j]? = some (byteOf w j) := by
  rw [← List.getElem?_drop, objectStream_drop h, List.getElem?_append_left hj, emitWord_getElem? w hj]

/-- Where the bytes of a word stand initialized, the word is read and no byte of it is uninitialized. -/
theorem peekWord_of_initialized {m : Memory} {a : Nat} {w : Word}
    (h : ∀ j, j < 4 → byteAt m (a + j) = .initialized (byteOf w j)) :
    peekWord m a = some w ∧ anyUninit m a 4 = false := by
  constructor
  · exact peekWord_eq_some_iff.2 ⟨byteOf w, fun j hj => by simp [peekByte, h j hj], loadWord_byteOf w⟩
  · simp only [anyUninit, List.any_eq_false, List.mem_range]
    intro j hj
    simp [h j hj]

/-- After a load that succeeds each word stands at its place (R303). -/
theorem peekWord_loadObject {base : Word} {ws : List Word} {s t : State} {i : Nat} {w : Word} (hs : MemoryCanonical s)
    (h : loadObject base (objectStream ws) s = .done () t) (hw : ws[i]? = some w) :
    peekWord t.regions (base.toNat + 4 * i) = some w ∧ anyUninit t.regions (base.toNat + 4 * i) 4 = false := by
  refine peekWord_of_initialized fun j hj => ?_
  rw [Nat.add_assoc]
  exact (byteAt_writeBytes hs h).1 _ _ (objectStream_getElem? hw hj)

/-- A load that succeeds changes memory and nothing else. -/
theorem loadObject_frame {base : Word} {bs : List Byte} {s t : State} (hs : MemoryCanonical s)
    (h : loadObject base bs s = .done () t) : t = { s with regions := t.regions } :=
  (byteAt_writeBytes hs h).2.2

/-- Under the host's duty a load succeeds: every byte of the stream maps to the one region. -/
theorem loadObject_of_room {base : Word} {bs : List Byte} {s : State} (h : loadRoomOk base bs.length s = true) :
    ∃ t, loadObject base bs s = .done () t := by
  obtain ⟨i, k, r, -, -, -, hmap⟩ := loadRoomOk_iff.1 h
  exact writeBytes_of_mapped fun j hj => by simp [hmap j hj]

/-- A load keeps the room it was granted: writes change neither where an address maps nor a region's length. -/
theorem loadRoomOk_after_load {base : Word} {bs : List Byte} {n : Nat} {s t : State}
    (h : loadRoomOk base n s = true) (hl : loadObject base bs s = .done () t) : loadRoomOk base n t = true := by
  obtain ⟨i, k, r, hr, hbase, hroom, hmap⟩ := loadRoomOk_iff.1 h
  have hlen := maxLen_writeBytes hl i
  rw [hr] at hlen
  obtain ⟨q, hq, hqr⟩ := Option.map_eq_some_iff.1 hlen
  refine loadRoomOk_iff.2 ⟨i, k, q, hq, ?_, hqr ▸ hroom, fun j hj => ?_⟩
  · rw [mapAddr_writeBytes hl, hbase]
  · rw [mapAddr_writeBytes hl, hmap j hj]

/-- Settles O38: the duty maps every byte, and each byte written reads back as the byte of its word. -/
theorem loadedProgramIsInPlace : Obligations.LoadedProgramIsInPlace := by
  refine ⟨fun _ _ _ => loadObject_of_room, fun base ws s t hs h => ⟨fun i w => peekWord_loadObject hs h, ?_⟩⟩
  rw [loadObject_frame hs h]
  exact ⟨rfl, rfl, rfl, fun _ => rfl⟩

/-! ### The boot (R301, R303) -/

/-- A catalog that is admitted is admitted as it is. -/
theorem eq_of_admitCatalog {c d : Catalog} (h : admitCatalog c = some d) : d = c := by
  unfold admitCatalog at h
  split at h <;> cases h
  rfl

/-- A boot admits the catalog, launches, assembles at the text base and loads there (R301, log entries 13 and 17). -/
theorem bootWith_eq_some_iff {p : Params} {fe : FrontEnd} {c : Catalog} {t : Tree} {s : State} :
    bootWith p fe c t = some s ↔ admitCatalog c = some c ∧ ∃ s₀ bs, launch p = some s₀ ∧
      assembleFor p fe c t = .ok bs ∧ loadRoomOk p.textBase bs.length s₀ = true ∧
      loadObject p.textBase bs s₀ = .done () s := by
  cases hc : admitCatalog c with
  | none => simp [bootWith, hc]
  | some d =>
    obtain rfl := eq_of_admitCatalog hc
    cases hl : launch p with
    | none => simp [bootWith, hc, hl]
    | some s₀ => cases ha : assembleFor p fe d t <;> simp [bootWith, hc, hl, ha, loadFor_iff]

/-- The object stream of a program is that of its words. -/
theorem assembleFor_ok {p : Params} {fe : FrontEnd} {c : Catalog} {t : Tree} {bs : List Byte}
    (h : assembleFor p fe c t = .ok bs) :
    ∃ ws, assembleNodes fe c p.textBase (flattenTree t) = .ok ws ∧ bs = objectStream ws := by
  obtain ⟨labels, ws, h1, h2, rfl⟩ := assemble_ok.1 h
  exact ⟨ws, by rw [assembleNodes, h1]; exact h2, rfl⟩

/-- The first step on an initialized word executes it and leaves the mark. -/
theorem step_of_initialized {s : State} {w : Word} {i : Instr} (hs : s.halt = none)
    (hw : peekWord s.regions s.pc.toNat = some w) (hu : anyUninit s.regions s.pc.toNat 4 = false)
    (hd : decodeWord w = .ok i) : step s = exec i { s with pc := s.pc + 4#32 } := by
  rw [step_of_decodeWord hs hw hd, afterFetch, hu, Bool.or_false]
  rfl

/-- A boot is granted exactly under its four conditions: the load needs no other one than the host's duty. -/
theorem exists_bootWith_iff {p : Params} {fe : FrontEnd} {c : Catalog} {t : Tree} :
    (∃ s, bootWith p fe c t = some s) ↔ admitCatalog c = some c ∧ ∃ s bs, launch p = some s ∧
      assembleFor p fe c t = .ok bs ∧ loadRoomOk p.textBase bs.length s = true := by
  simp only [bootWith_eq_some_iff]
  constructor
  · rintro ⟨s, hc, s₀, bs, hl, ha, hroom, -⟩
    exact ⟨hc, s₀, bs, hl, ha, hroom⟩
  · rintro ⟨hc, s₀, bs, hl, ha, hroom⟩
    obtain ⟨s, hs⟩ := loadObject_of_room hroom
    exact ⟨s, hc, s₀, bs, hl, ha, hroom, hs⟩

/-- What a boot answers: the state after reset with the words of the program loaded at `pc`, where there is room. -/
theorem bootWith_spec {p : Params} {fe : FrontEnd} {c : Catalog} {t : Tree} {s : State}
    (h : bootWith p fe c t = some s) :
    s = { State.resetWith p with regions := s.regions } ∧
    ∃ ws, assembleNodes fe c p.textBase (flattenTree t) = .ok ws ∧
      loadRoomOk p.textBase (4 * ws.length) s = true ∧
      ∀ i w, ws[i]? = some w → peekWord s.regions (p.textBase.toNat + 4 * i) = some w ∧
        anyUninit s.regions (p.textBase.toNat + 4 * i) 4 = false := by
  obtain ⟨-, s₀, bs, hl, ha, hroom, hload⟩ := bootWith_eq_some_iff.1 h
  obtain ⟨rfl, hok⟩ := launch_eq_some_iff.1 hl
  have hwf : MemoryCanonical (State.resetWith p) := (Params.ok_iff.1 hok).1
  obtain ⟨ws, hws, rfl⟩ := assembleFor_ok ha
  rw [objectStream_length] at hroom
  exact ⟨loadObject_frame hwf hload, ws, hws, loadRoomOk_after_load hroom hload,
    fun i w => peekWord_loadObject hwf hload⟩

/-- Settles O60: a boot leaves the state after reset with the program loaded at the text base, which is where `pc`
starts and pass 1 counts from. -/
theorem programStartsAtTextBase : Obligations.ProgramStartsAtTextBase := by
  refine ⟨fun p fe c t => exists_bootWith_iff, fun p fe c t s h => ?_⟩
  obtain ⟨hs, ws, hws, hroom, hwords⟩ := bootWith_spec h
  have hpc : s.pc = p.textBase := congrArg State.pc hs
  have hhalt : s.halt = none := congrArg State.halt hs
  rw [← hpc] at hroom hwords ⊢
  refine ⟨rfl, hhalt, congrArg State.uninitSeen hs, ⟨ws, hpc ▸ hws, loadRoomOk_iff.1 hroom, hwords, fun w i hw => ?_⟩,
    fun before after l labels hbefore hcount hpass => ?_⟩
  · obtain ⟨hword, hinit⟩ := hwords 0 w hw
    exact step_of_initialized hhalt hword hinit
  · rw [hbefore] at hpass
    simpa [hcount] using pass1_lookup_label hpass

end Sys2Proof.Machine
